-- ==== Sys2Proof/Word.lean ====
section
/-! DEFINITION. The words of the framer block: the byte, the 40-bit request word and the two transfer kinds. -/

namespace Sys2Proof

/-- `u8` of R8: an unsigned integer in 0..255 whose bit `b` has weight `2^b`. -/
abbrev Byte := BitVec 8

/-- The 40-bit request word of R70; bit 39 is the most significant. -/
abbrev ReqWord := BitVec 40

/-- The kind of one framed byte (R10, R90): a command or a data transfer. -/
inductive Kind where
  | cmd
  | data
  deriving DecidableEq, Repr, Inhabited

end Sys2Proof
end

