-- ==== Sys2Proof/Syntax.lean ====
section
/-! DEFINITION. The eight requests of the block, one constructor per row of spec/opcode_table.json (R73). -/

namespace Sys2Proof

/-- A request with its operands (R71, R72). The coordinates are the integers the range checks and the
index arithmetic are about; `Instr.wellFormed` says that each fits its 8-bit field. -/
inductive Instr where
  /-- SEND (R91): frame one byte as a command or as data. -/
  | send (kind : Kind) (byte : Byte)
  /-- INIT (R100): reset pulse, bus configuration, six configuration commands. -/
  | init
  /-- CLEAR (R116): zero the framebuffer. -/
  | clear
  /-- FLUSH (R105): stream the framebuffer to the controller. -/
  | flush
  /-- SETTEXTPOS (R112): position at a text cell. -/
  | settextpos (row col : Nat)
  /-- SETPIXPOS (R115): position at the byte of a pixel. -/
  | setpixpos (x y : Nat)
  /-- DRAWPIXEL (R131): light one pixel. -/
  | drawpixel (x y : Nat)
  /-- DRAWLINE (R137): light the pixels of a line; both x values come first (R71, format F4). -/
  | drawline (x1 x2 y1 y2 : Nat)
  deriving DecidableEq, Repr

end Sys2Proof
end

