-- ==== Sys2Proof/WellFormed.lean ====
section
/-! DEFINITION. Which requests have an encoding: every coordinate operand is an unsigned 8-bit value (R72, R78). -/

namespace Sys2Proof

/-- An operand literal in 0..255 (R78: a literal outside that range is an assembly error, not a request). -/
def isU8 (n : Nat) : Bool := decide (n < 256)

/-- The request can be written as a request word: every coordinate is a `u8` (R72). -/
def Instr.wellFormed : Instr → Bool
  | .send _ _ => true
  | .init => true
  | .clear => true
  | .flush => true
  | .settextpos row col => isU8 row && isU8 col
  | .setpixpos x y => isU8 x && isU8 y
  | .drawpixel x y => isU8 x && isU8 y
  | .drawline x1 x2 y1 y2 => isU8 x1 && isU8 x2 && isU8 y1 && isU8 y2

end Sys2Proof
end

