-- ==== Sys2Proof/Decode.lean ====
section
/-! DEFINITION. The request word (R70-R80): its decoder, total on every 40-bit word and rejecting by name, and its
encoder, both written from the table of R73. -/

namespace Sys2Proof

/-- `OPC = w[39:32]` (R70). -/
def ReqWord.opc (w : ReqWord) : Byte := w.extractLsb' 32 8
/-- Operand byte `A = w[31:24]` (R70). -/
def ReqWord.a (w : ReqWord) : Byte := w.extractLsb' 24 8
/-- Operand byte `B = w[23:16]` (R70). -/
def ReqWord.b (w : ReqWord) : Byte := w.extractLsb' 16 8
/-- Operand byte `C = w[15:8]` (R70). -/
def ReqWord.c (w : ReqWord) : Byte := w.extractLsb' 8 8
/-- Operand byte `D = w[7:0]` (R70). -/
def ReqWord.d (w : ReqWord) : Byte := w.extractLsb' 0 8

/-- The operand of SEND's field A (R72): 0x00 is CMD, 0x01 is DATA; no other value passes the mask of R73. -/
def kindOfField (f : Byte) : Kind := if f = 0x00 then .cmd else .data

/-- One row of R73: the word matches when its bits under `mask` are those of `value`; `operands` is R72. -/
structure OpRow where
  mnemonic : String
  value : ReqWord
  mask : ReqWord
  operands : ReqWord → Instr

/-- The opcode map of R73, in its order. -/
def opTable : List OpRow :=
  [ ⟨"SEND", 0x0100000000, 0xFFFE00FFFF, fun w => .send (kindOfField w.a) w.b⟩,
    ⟨"INIT", 0x0200000000, 0xFFFFFFFFFF, fun _ => .init⟩,
    ⟨"CLEAR", 0x0300000000, 0xFFFFFFFFFF, fun _ => .clear⟩,
    ⟨"FLUSH", 0x0400000000, 0xFFFFFFFFFF, fun _ => .flush⟩,
    ⟨"SETTEXTPOS", 0x0500000000, 0xFF0000FFFF, fun w => .settextpos w.a.toNat w.b.toNat⟩,
    ⟨"SETPIXPOS", 0x0600000000, 0xFF0000FFFF, fun w => .setpixpos w.a.toNat w.b.toNat⟩,
    ⟨"DRAWPIXEL", 0x0700000000, 0xFF0000FFFF, fun w => .drawpixel w.a.toNat w.b.toNat⟩,
    ⟨"DRAWLINE", 0x0800000000, 0xFF00000000,
      fun w => .drawline w.a.toNat w.b.toNat w.c.toNat w.d.toNat⟩ ]

/-- Whether a word matches a row: `(w & mask) == match` of R74. -/
def OpRow.hits (r : OpRow) (w : ReqWord) : Bool := (w &&& r.mask) == r.value

/-- Why a word is illegal, one name for each item of R75. -/
inductive IllegalRequest where
  /-- `OPC` is 0x00 or in 0x09..0xFF. -/
  | reservedOpcode (opc : Byte)
  /-- SEND with `A` in 0x02..0xFF. -/
  | noSuchKind (a : Byte)
  /-- A nonzero operand bit that the format does not use. -/
  | reservedOperandBits (w : ReqWord)
  deriving DecidableEq, Repr

/-- The item of R75 that an unmatched word falls under. -/
def illegalReason (w : ReqWord) : IllegalRequest :=
  if w.opc = 0x00 ∨ 0x09 ≤ w.opc.toNat then .reservedOpcode w.opc
  else if w.opc = 0x01 ∧ 0x02 ≤ w.a.toNat then .noSuchKind w.a
  else .reservedOperandBits w

/-- The decoder of R74, total on every 40-bit word. No state is an argument: nothing of the block's state
changes how a word decodes (R76). -/
def decode (w : ReqWord) : Except IllegalRequest Instr :=
  match opTable.find? (·.hits w) with
  | some r => .ok (r.operands w)
  | none => .error (illegalReason w)

/-- The word with the five fields of R70. -/
def packWord (opc a b c d : Byte) : ReqWord :=
  (opc ++ a ++ b ++ c ++ d : BitVec (8 + 8 + 8 + 8 + 8))

/-- SEND's field A (R71, format FS): `0000000k`. -/
def kindField : Kind → Byte
  | .cmd => 0x00
  | .data => 0x01

/-- The opcode of R73. -/
def Instr.opcode : Instr → Byte
  | .send _ _ => 0x01
  | .init => 0x02
  | .clear => 0x03
  | .flush => 0x04
  | .settextpos _ _ => 0x05
  | .setpixpos _ _ => 0x06
  | .drawpixel _ _ => 0x07
  | .drawline _ _ _ _ => 0x08

/-- The request word of a request by R71 and R73, reserved fields 0. -/
def encode (i : Instr) : ReqWord :=
  match i with
  | .send k b => packWord i.opcode (kindField k) b 0 0
  | .init => packWord i.opcode 0 0 0 0
  | .clear => packWord i.opcode 0 0 0 0
  | .flush => packWord i.opcode 0 0 0 0
  | .settextpos row col => packWord i.opcode (.ofNat 8 row) (.ofNat 8 col) 0 0
  | .setpixpos x y => packWord i.opcode (.ofNat 8 x) (.ofNat 8 y) 0 0
  | .drawpixel x y => packWord i.opcode (.ofNat 8 x) (.ofNat 8 y) 0 0
  | .drawline x1 x2 y1 y2 =>
    packWord i.opcode (.ofNat 8 x1) (.ofNat 8 x2) (.ofNat 8 y1) (.ofNat 8 y2)

/-- One line of the assembler (R78) with the pseudo-instructions of R79. -/
inductive AsmLine where
  | core (i : Instr)
  | sendcmd (b : Byte)
  | senddata (b : Byte)
  /-- `LINE (X1,Y1)-(X2,Y2)`: the endpoints as points. -/
  | line (xa ya xb yb : Nat)
  deriving DecidableEq, Repr

/-- The expansions of R79. -/
def AsmLine.expand : AsmLine → Instr
  | .core i => i
  | .sendcmd b => .send .cmd b
  | .senddata b => .send .data b
  | .line xa ya xb yb => .drawline xa xb ya yb

/-- Assembly of one line to one request word (R78): a literal outside 0..255 is an assembly error. -/
def AsmLine.assemble (l : AsmLine) : Option ReqWord :=
  if l.expand.wellFormed then some (encode l.expand) else none

/-- The low `nbits` bits of `w` as a request word. A request is ONE 40-bit word (R70), so the table's bit 0 is
`w[0]` and no byte order enters. -/
def tableWord (nbits w : Nat) : ReqWord := .ofNat 40 (w % 2 ^ nbits)

/-- The host's view of the decoder: the request read from an instruction of `nbits` bits, none where it is refused. -/
def decodeTableWord (nbits w : Nat) : Option Instr :=
  match decode (tableWord nbits w) with
  | .ok i => some i
  | .error _ => none

end Sys2Proof
end

