-- ==== Sys2Proof/Config.lean ====
section
/-! DEFINITION. What one implementation fixes: the geometry of R5, and the OPEN parameters of R6 and the reset draw of
R21 as constants without a body. -/

namespace Sys2Proof

/-- `ROWS` (R5): number of 8-pixel-tall banks. -/
abbrev Config.rows : Nat := 6
/-- `COLS` (R5): pixel columns, also bytes per bank. -/
abbrev Config.cols : Nat := 84
/-- `BANK_H` (R5): pixels per framebuffer byte. -/
abbrev Config.bankH : Nat := 8
/-- `N_FB` (R5): framebuffer length in bytes, `ROWS * COLS`. -/
abbrev Config.nFb : Nat := 504
/-- `PIX_X` (R5): exclusive bound of pixel coordinate x, `ROWS * 8`. -/
abbrev Config.pixX : Nat := 48
/-- `PIX_Y` (R5): exclusive bound of pixel coordinate y, `COLS`. -/
abbrev Config.pixY : Nat := 84
/-- `CELL_W` (R5): text cell width in columns. -/
abbrev Config.cellW : Nat := 6
/-- `TEXT_COLS` (R5): exclusive bound of text column, `COLS / 6`. -/
abbrev Config.textCols : Nat := 14

/-- The domain of `P_FLUSH_CURSOR` (R6, R108). -/
inductive FlushCursor where
  | keep
  | zero
  deriving DecidableEq, Repr, Inhabited

/-- The domain of `P_SER_BIT_ORDER` (R6, R53). -/
inductive BitOrder where
  | msbFirst
  | lsbFirst
  deriving DecidableEq, Repr, Inhabited

/-- `P_DC_CMD` (R6, R28, R93): the mode-line level that encodes a command; `true` is level 1. -/
opaque Config.dcCmd : Bool
/-- `P_CMD_BANK` (R6, R110): the command byte that selects bank 0..5. -/
opaque Config.cmdBank : Nat → Byte
/-- `P_CMD_COL` (R6, R110): the command byte that selects column 0..83. -/
opaque Config.cmdCol : Nat → Byte
/-- `P_INIT_SEQ` (R6, R103): configuration command byte `k`, `k` in 0..5. -/
opaque Config.initSeq : Nat → Byte
/-- `P_FLUSH_CURSOR` (R6, R108): FLUSH's effect on the cursor. -/
opaque Config.flushCursor : FlushCursor
/-- `P_SER_BIT_ORDER` (R6, R53): the bit order on the serial wire. -/
opaque Config.serBitOrder : BitOrder
/-- `P_T_RST_LO` less 1 unit (R6, R101): the length of the low phase beyond the 1 unit the spec demands. -/
opaque Config.tRstLoExtra : Nat
/-- `P_T_RST_HI` less 1 unit (R6, R101). -/
opaque Config.tRstHiExtra : Nat
/-- The reset draw of R21: the arbitrary value byte `i` of `FB` holds until a request writes it. -/
opaque Config.fbReset : Nat → Byte

/-- `P_T_RST_LO` in units, at least 1 (R101). -/
def Config.tRstLo : Nat := Config.tRstLoExtra + 1
/-- `P_T_RST_HI` in units, at least 1 (R101). -/
def Config.tRstHi : Nat := Config.tRstHiExtra + 1

end Sys2Proof
end

