-- ==== Sys2Proof/Machine/State.lean ====
section
/-! DEFINITION. The state of one block instance (R20): the framebuffer, the cursor, the interface lines, the control
bits, the working registers, the records, and the agents' pending work; all of it plain data. -/

namespace Sys2Proof.Machine

/-- The response of a request (R10, R25). -/
inductive Response where
  | done
  | ok
  | oor
  deriving DecidableEq, Repr, Inhabited

/-- The two reset delays of INIT (R101). -/
inductive Delay where
  | lo
  | hi
  deriving DecidableEq, Repr, Inhabited

/-- The events of `HIST` (R35). -/
inductive Event where
  /-- One framed byte, recorded when its Send completes. -/
  | bus (kind : Kind) (b : Byte)
  /-- A change of `RST_N`. -/
  | rst (level : Bool)
  | delay (d : Delay)
  /-- The platform's bus-configuration step. -/
  | busCfg
  | rsp (r : Response)
  deriving DecidableEq, Repr

/-- One write of a line of R26, in the order the block and the engine make them (R92). -/
inductive LineChange where
  /-- `SCE_N <- level`. -/
  | sceN (level : Bool)
  /-- `DC <- level`. -/
  | dc (level : Bool)
  /-- `SDR <- b`, which makes `TC = 0` (R30). -/
  | sdr (b : Byte)
  /-- `TC <- 1`, the engine's only write (R30, R96). -/
  | tcDone
  /-- `RST_N <- level`. -/
  | rstN (level : Bool)
  deriving DecidableEq, Repr

/-- `PHASE` (R34). -/
inductive Phase where
  | idle
  | busy
  | waitTc
  deriving DecidableEq, Repr, Inhabited

/-- What a raised fault records in `FAULT` (R38, R153). -/
inductive FaultRecord where
  /-- `F_BUS_NOT_READY`, code 1: the request index, the opcode, and the kind and byte of the Send attempted. -/
  | busNotReady (ri : Nat) (opc : Byte) (kind : Kind) (b : Byte)
  /-- `F_REINIT`, code 2: the request index. -/
  | reinit (ri : Nat)
  deriving DecidableEq, Repr

/-- The framebuffer's cells that a request has written: (index, byte) pairs, indices strictly rising. -/
abbrev Memory := List Host.Cell

/-- DRAWLINE's working registers (R36). Between requests they keep what the last DRAWLINE left in them, which is the
model's choice (notes/assumptions/20.md). -/
structure LineRegs where
  /-- `LX`, current point on the line's X axis. -/
  lx : Int
  /-- `LY`, current point on the line's Y axis. -/
  ly : Int
  /-- `LD`, the error term. -/
  ld : Int
  /-- `LSX`, unit step, -1 or +1. -/
  lsx : Int
  /-- `LSY`, unit step, -1 or +1. -/
  lsy : Int
  /-- `LAX`, absolute delta. -/
  lax : Int
  /-- `LAY`, absolute delta. -/
  lay : Int
  deriving DecidableEq, Repr

/-- One action of a request, in the order its pseudocode lists them (R59). A request's meaning is a list of these,
so that the rest of a request can stand in the state while a Send waits for `TC` (R94). -/
inductive Op where
  /-- `Send(kind, b)` (R90). -/
  | send (kind : Kind) (b : Byte)
  /-- `Send(DATA, MemRead(FI, 1))` (R105). -/
  | sendFb
  /-- `FI <- n`. -/
  | setFi (n : Nat)
  /-- `FI <- FI + 1`. -/
  | incFi
  /-- `CUR <- n`. -/
  | setCur (n : Nat)
  /-- `if P_FLUSH_CURSOR = ZERO: CUR <- 0` (R108). -/
  | flushCur
  /-- `MemWrite(CUR, 1, MemRead(CUR, 1) | m)` (R130). -/
  | orAtCur (m : Byte)
  /-- `MemWrite(i, 1, v)` (R116). -/
  | memWrite (i : Nat) (v : Byte)
  /-- The working registers take the values of the current line point. -/
  | setLine (r : LineRegs)
  /-- `RST_N <- level; Emit(RST(level))` (R101). -/
  | driveRst (level : Bool)
  /-- `delay(t); Emit(DELAY(d))` (R101). -/
  | delay (d : Delay)
  /-- `BUS_READY <- 1; Emit(BUSCFG)` (R102). -/
  | busConfig
  /-- `INIT_DONE <- 1` (R100). -/
  | setInitDone
  /-- `respond(r)` (R10). -/
  | respond (r : Response)
  deriving DecidableEq, Repr

/-- A request held in `WAIT_TC` (R94): its opcode, the transfer in progress and what is left to do after it. -/
structure Pending where
  opc : Byte
  kind : Kind
  byte : Byte
  rest : List Op
  deriving DecidableEq, Repr

/-- The state of one block instance. The fields down to `hist` are those of R20; the last four are the
model's own record of the lines, of the other agents of R7 and of the request in progress. -/
structure State where
  /-- `FB[0..503]` (R21): the bytes written so far. -/
  fb : Memory
  /-- `CUR`, 0..504 (R22). -/
  cur : Nat
  /-- `SCE_N`, active low (R27); `true` is level 1. -/
  sceN : Bool
  /-- `DC` (R28). -/
  dc : Bool
  /-- `SDR` (R29). -/
  sdr : Byte
  /-- `TC` (R30). -/
  tc : Bool
  /-- `RST_N` (R31). -/
  rstN : Bool
  /-- `BUS_READY` (R32). -/
  busReady : Bool
  /-- `INIT_DONE` (R33). -/
  initDone : Bool
  /-- `PHASE` (R34). -/
  phase : Phase
  /-- `LX, LY, LD, LSX, LSY, LAX, LAY` (R36). -/
  line : LineRegs
  /-- `FI`, 0..504 (R37). Between requests it keeps what the last FLUSH left in it, which is the model's choice
  (notes/assumptions/20.md). -/
  fi : Nat
  /-- `RI` (R24). -/
  ri : Nat
  /-- `FAULT` (R38); none is NONE. -/
  fault : Option FaultRecord
  /-- `REFUSED` (R39). -/
  refused : Bool
  /-- `HIST` (R35), oldest event first. -/
  hist : List Event
  /-- The writes of the lines so far, oldest first (R92; notes/assumptions/19.md). -/
  wave : List LineChange
  /-- The request words the host has still to present (R24, R77): the head is on `REQ` with `REQ_VALID = 1`. -/
  req : List ReqWord
  /-- The rest of the request in progress while it waits for `TC`; none outside a wait. -/
  pending : Option Pending
  /-- The serial engine's (R96) answer to each coming transfer: `some d` completes it after `d` more steps
  of the machine, `none` never completes it; past the end of the list every transfer completes at once. -/
  engine : List (Option Nat)
  deriving DecidableEq, Repr

/-- Why the machine stops with a fault. -/
inductive Fault where
  /-- Raised by `step` in a state whose `FAULT` is not NONE (R154: the block takes no step). Safe: the machine
  stops, as the spec says. -/
  | stopped (r : FaultRecord)
  /-- Raised by an access to `FB` at an index outside 0..503, which the spec says no request makes (R56). Safe:
  the machine stops; no state that meets `State.Inv` reaches it. -/
  | fbIndex (i : Nat)
  deriving DecidableEq, Repr

/-- Why the machine gives no meaning. -/
inductive Refusal where
  /-- An instruction whose meaning has not been written; raised by `exec` only. Safe. -/
  | notModelled (mnemonic : String)
  /-- Raised by `step` in a state with `REFUSED = 1` (R155: the block takes no further step). Safe. -/
  | illegalRequest
  deriving DecidableEq, Repr

/-- Block reset (R170): the creation of the instance. Where R20 says 'unspecified' of a register, the value is the
model's (notes/assumptions/2.md): `DC`, `SDR`, `RST_N`, the working registers and `FI` are 0. `FB` lists nothing, so
every byte of it is its reset draw. No line has been written, the host has presented nothing and the engine is
responsive. -/
def State.reset : State where
  fb := []
  cur := 0
  sceN := true
  dc := false
  sdr := 0
  tc := false
  rstN := false
  busReady := false
  initDone := false
  phase := .idle
  line := ⟨0, 0, 0, 0, 0, 0, 0⟩
  fi := 0
  ri := 0
  fault := none
  refused := false
  hist := []
  wave := []
  req := []
  pending := none
  engine := []

end Sys2Proof.Machine
end

