-- ==== Sys2Proof/Machine/Flags.lean ====
section
/-! DEFINITION. The block has no condition codes (R25): its results are responses and port signals. This file holds
the response and fault codes, the port signals of R77, and the level of the mode line. -/

namespace Sys2Proof.Machine

/-- `RSP[1:0]` (R77). The value `0b11` is never produced. -/
def Response.code : Response → BitVec 2
  | .done => 0b00
  | .ok => 0b01
  | .oor => 0b10

/-- The status of a range check (R112, R115): OK when it passes, OOR when it fails. -/
def rangeStatus (valid : Bool) : Response := if valid then .ok else .oor

/-- The fault codes of R153. -/
def FaultRecord.code : FaultRecord → Nat
  | .busNotReady _ _ _ _ => 1
  | .reinit _ => 2

/-- `REQ_READY = 1` exactly when `PHASE = IDLE`, `FAULT = NONE` and `REFUSED = 0` (R77). -/
abbrev State.reqReady (s : State) : Prop := s.phase = .idle ∧ s.fault = none ∧ s.refused = false

/-- `REQ_VALID`: the host presents a word (R77). -/
def State.reqValid (s : State) : Bool := !s.req.isEmpty

/-- `level(kind)` (R93): `P_DC_CMD` for a command and the opposite level for data. -/
def modeLevel : Kind → Bool
  | .cmd => Config.dcCmd
  | .data => !Config.dcCmd

end Sys2Proof.Machine
end

