-- ==== Sys2Proof/Machine/Operands.lean ====
section
/-! DEFINITION. The operands of the positioning and drawing requests: the range checks and the two coordinate
mappings of the address translator (R111, R113, R114, R118). -/

namespace Sys2Proof.Machine

/-- A text cell is valid iff `row < ROWS` and `col < TEXT_COLS` (R111). -/
def validCell (row col : Nat) : Bool := decide (row < Config.rows) && decide (col < Config.textCols)

/-- A pixel is valid iff `x < PIX_X` and `y < PIX_Y` (R113). -/
def validPix (x y : Nat) : Bool := decide (x < Config.pixX) && decide (y < Config.pixY)

/-- `text_px(col) = col * CELL_W` (R118). -/
def textPx (col : Nat) : Nat := col * Config.cellW

/-- `text_index(row, col) = col*6 + row*COLS` (R118). -/
def textIndex (row col : Nat) : Nat := col * Config.cellW + row * Config.cols

/-- `pix_bank(x) = x div 8` (R114). -/
def pixBank (x : Nat) : Nat := x / Config.bankH

/-- `pix_index(x, y) = y + (x div 8)*COLS` (R114). -/
def pixIndex (x y : Nat) : Nat := y + x / Config.bankH * Config.cols

/-- `pix_bit(x) = x mod 8` (R114). -/
def pixBit (x : Nat) : Nat := x % Config.bankH

/-- `pix_mask(x) = 1 << (x mod 8)` (R114). -/
def pixMask (x : Nat) : Byte := 1#8 <<< pixBit x

end Sys2Proof.Machine
end

