-- ==== Sys2Proof/Machine/Ops.lean ====
section
/-! DEFINITION. The shared operations: the framebuffer's bytes (R55), the framer's byte transfer with the serial
engine's step (R90, R96), the outcomes (R10, R153, R155), and the run of a request's actions (R59). -/

namespace Sys2Proof.Machine

/-! ### The framebuffer -/

/-- What an index that no request has written holds: no value. The byte read there is the reset draw (R21). -/
def Memory.unlisted : Option Byte := none

/-- The byte listed at an index. -/
def Memory.get? : Memory → Nat → Option Byte
  | [], _ => Memory.unlisted
  | (j, v) :: m, i => if i = j then some v else Memory.get? m i

/-- `FB[i] <- v` on the list of cells, keeping the indices strictly rising. -/
def Memory.set : Memory → Nat → Byte → Memory
  | [], i, v => [(i, v)]
  | (j, w) :: m, i, v =>
    if i < j then (i, v) :: (j, w) :: m
    else if i = j then (i, v) :: m
    else (j, w) :: Memory.set m i v

/-- The canonical form: indices strictly rising and all below `N_FB`. An unlisted index holds no value, so no entry
can equal what an unlisted index holds. -/
def Memory.wf (m : Memory) : Bool :=
  decide (m.Pairwise (fun p q => p.1 < q.1)) && m.all (fun p => decide (p.1 < Config.nFb))

/-- The byte `FB[i]` holds: the last byte written there, or the reset draw if there was none (R59 point 3). -/
def State.fbByte (s : State) (i : Nat) : Byte := (s.fb.get? i).getD (Config.fbReset i)

/-- `MemRead(i, 1)` (R55); none outside 0..503 (R56). -/
def State.memRead (s : State) (i : Nat) : Option Byte :=
  if i < Config.nFb then some (s.fbByte i) else none

/-- `MemWrite(i, 1, v)` (R55); none outside 0..503 (R56). -/
def State.memWrite (s : State) (i : Nat) (v : Byte) : Option State :=
  if i < Config.nFb then some { s with fb := s.fb.set i v } else none

/-! ### Events and outcomes -/

/-- `Emit(e)` (R10): append to `HIST`. -/
def State.emit (s : State) (e : Event) : State := { s with hist := s.hist ++ [e] }

/-- `respond(r)` (R10, R24, R34): the response event; the request is complete, so `RI` counts it and the phase is
IDLE again. -/
def State.respond (s : State) (r : Response) : State :=
  { s with hist := s.hist ++ [.rsp r], ri := s.ri + 1, phase := .idle }

/-- `raise Fault(f)` (R10, R153): the block's one way to take an exception. Only `FAULT` is written: no event, no
response, `RI` unchanged, and there is no vector, no saved state and no return (R159). -/
def State.raiseFault (s : State) (r : FaultRecord) : State := { s with fault := some r }

/-- `refuse(reason)` (R10, R74): only the refusal mark is written. -/
def State.refuse (s : State) : State := { s with refused := true }

/-- The block takes up a request (R34): the phase is BUSY and nothing of it is held yet. -/
def State.begin (s : State) : State := { s with phase := .busy, pending := none }

/-! ### The lines -/

/-- `SCE_N <- level` (R27). -/
def State.driveSceN (s : State) (level : Bool) : State := { s with sceN := level, wave := s.wave ++ [.sceN level] }

/-- `DC <- level` (R28). -/
def State.driveDc (s : State) (level : Bool) : State := { s with dc := level, wave := s.wave ++ [.dc level] }

/-- `SDR <- b` (R29), which makes `TC = 0` (R30). -/
def State.writeSdr (s : State) (b : Byte) : State := { s with sdr := b, tc := false, wave := s.wave ++ [.sdr b] }

/-- `TC <- 1`, by the serial engine (R30, R96). -/
def State.transferDone (s : State) : State := { s with tc := true, wave := s.wave ++ [.tcDone] }

/-- `RST_N <- level` (R31). -/
def State.driveRstN (s : State) (level : Bool) : State := { s with rstN := level, wave := s.wave ++ [.rstN level] }

/-! ### The serial engine -/

/-- The engine's work on the transfer in progress: its answer says whether this step completes the transfer
(`TC <- 1`), is one more step of waiting, or never completes it. -/
def engineAnswer (s : State) : State :=
  match s.engine with
  | [] => s.transferDone
  | some 0 :: later => State.transferDone { s with engine := later }
  | some (d + 1) :: later => { s with engine := some d :: later }
  | none :: _ => s

/-- The serial engine's step (R96), enabled when `PHASE = WAIT_TC` and `TC = 0`. -/
def engineStep (s : State) : State :=
  if s.phase = .waitTc ∧ s.tc = false then engineAnswer s else s

/-- The bits of one byte in the order they leave on the serial wire (R53, R96); no state depends on it. -/
def wireBits (order : BitOrder) (b : Byte) : List Bool :=
  match order with
  | .lsbFirst => (List.range 8).map b.getLsbD
  | .msbFirst => (List.range 8).map b.getMsbD

/-! ### The framer -/

/-- The first three line changes of a Send, one after another in the order of R92, and the phase of the wait (R90). -/
def State.sendStart (s : State) (k : Kind) (b : Byte) : State :=
  { ((s.driveSceN false).driveDc (modeLevel k)).writeSdr b with phase := .waitTc }

/-- The end of a Send once `TC = 1` (R90): the phase is the request's again, `SCE_N` is deasserted, and the framed
byte is recorded. -/
def State.sendEnd (s : State) (k : Kind) (b : Byte) : State :=
  (State.driveSceN { s with phase := .busy } true).emit (.bus k b)

/-- What one action of a request comes to. -/
inductive OpResult where
  /-- The action is done. -/
  | ok (s : State)
  /-- The transfer of byte `b` is still in progress. -/
  | held (k : Kind) (b : Byte) (s : State)
  /-- A fault was recorded: the request ends here. -/
  | raised (s : State)
  /-- The action named an `FB` index that does not exist. -/
  | badIndex (i : Nat)
  deriving DecidableEq, Repr

/-- One poll of `TC` (R94): the engine has its step, and the Send ends if the transfer is complete. -/
def awaitTc (k : Kind) (b : Byte) (s : State) : OpResult :=
  if (engineStep s).tc then .ok ((engineStep s).sendEnd k b) else .held k b (engineStep s)

/-- `Send(kind, b)` (R90), for the request with opcode `opc`. -/
def sendByte (opc : Byte) (k : Kind) (b : Byte) (s : State) : OpResult :=
  if s.busReady then awaitTc k b (s.sendStart k b)
  else .raised (s.raiseFault (.busNotReady s.ri opc k b))

/-! ### Actions and requests -/

/-- The length in units of a reset delay (R101). -/
def delayUnits : Delay → Nat
  | .lo => Config.tRstLo
  | .hi => Config.tRstHi

/-- `delay(t)` (R10): a platform wait, with no effect on state. -/
def platformWait (_units : Nat) (s : State) : State := s

/-- The cursor after FLUSH's positioning (R108). -/
def flushCursor (mode : FlushCursor) (cur : Nat) : Nat :=
  match mode with
  | .keep => cur
  | .zero => 0

/-- The effect of one action of the request with opcode `opc`. What `setLine`, `setFi` and `incFi` leave in the working
registers and in `FI` stays there after the request, where the spec allows any value (notes/assumptions/20.md). -/
def doOp (opc : Byte) (op : Op) (s : State) : OpResult :=
  match op with
  | .send k b => sendByte opc k b s
  | .sendFb =>
    match s.memRead s.fi with
    | some b => sendByte opc .data b s
    | none => .badIndex s.fi
  | .setFi n => .ok { s with fi := n }
  | .incFi => .ok { s with fi := s.fi + 1 }
  | .setCur n => .ok { s with cur := n }
  | .flushCur => .ok { s with cur := flushCursor Config.flushCursor s.cur }
  | .orAtCur m =>
    match s.memRead s.cur with
    | some v =>
      match s.memWrite s.cur (v ||| m) with
      | some s' => .ok s'
      | none => .badIndex s.cur
    | none => .badIndex s.cur
  | .memWrite i v =>
    match s.memWrite i v with
    | some s' => .ok s'
    | none => .badIndex i
  | .setLine r => .ok { s with line := r }
  | .driveRst level => .ok ((s.driveRstN level).emit (.rst level))
  | .delay d => .ok ((platformWait (delayUnits d) s).emit (.delay d))
  | .busConfig => .ok ({ s with busReady := true }.emit .busCfg)
  | .setInitDone => .ok { s with initDone := true }
  | .respond r => .ok (s.respond r)

/-- The outcome of a machine step in the middle of a request. -/
abbrev Result := Host.Outcome State Fault Refusal

/-- A transfer still in progress is held in the state with the rest of its request (R94). -/
def State.hold (s : State) (opc : Byte) (k : Kind) (b : Byte) (rest : List Op) : State :=
  { s with pending := some ⟨opc, k, b, rest⟩ }

/-- The actions of a request, in order (R59 point 2), up to its end, a fault, or a transfer that is not complete. -/
def runOps (opc : Byte) : List Op → State → Result
  | [], s => .next s
  | op :: rest, s =>
    match doOp opc op s with
    | .ok s' => runOps opc rest s'
    | .held k b s' => .next (s'.hold opc k b rest)
    | .raised s' => .next s'
    | .badIndex i => .fault (.fbIndex i)

/-- A request of opcode `opc` whose pseudocode is the actions `ops`. -/
def request (opc : Byte) (ops : List Op) (s : State) : Result := runOps opc ops s.begin

/-- A step of the machine while a request is held (R94): one more poll of `TC`, and the rest of the request once the
transfer is complete. -/
def resume (p : Pending) (s : State) : Result :=
  match awaitTc p.kind p.byte { s with pending := none } with
  | .ok s' => runOps p.opc p.rest s'
  | .held k b s' => .next (s'.hold p.opc k b p.rest)
  | .raised s' => .next s'
  | .badIndex i => .fault (.fbIndex i)

/-! ### The host port -/

/-- The handshake of R77: the word on `REQ`, and the state in which the host has presented it. -/
def State.takeRequest (s : State) : Option (ReqWord × State) :=
  match s.req with
  | [] => none
  | w :: later => some (w, { s with req := later })

/-- The host presents the word `w` next. -/
def State.present (s : State) (w : ReqWord) : State := { s with req := w :: s.req }

end Sys2Proof.Machine
end

