-- ==== Sys2Proof/Machine/Transport.lean ====
section
/-! DEFINITION. The serial command/data framer: SEND (R91), and the positioning pair (R110) that the other families
send through it. -/

namespace Sys2Proof.Machine

/-- `PosCmds(bank, col)` (R110): bank first, then column. -/
def posCmds (bank col : Nat) : List Op :=
  [.send .cmd (Config.cmdBank bank), .send .cmd (Config.cmdCol col)]

/-- SEND (R91). -/
def execSend (kind : Kind) (byte : Byte) (s : State) : Result :=
  request 0x01 [.send kind byte, .respond .done] s

end Sys2Proof.Machine
end

