-- ==== Sys2Proof/Machine/Addressing.lean ====
section
/-! DEFINITION. The framebuffer address translator: SETTEXTPOS (R112), SETPIXPOS (R115) and CLEAR (R116). -/

namespace Sys2Proof.Machine

/-- `SetTextPos(row, col)` of R112: nothing on a failed check, else the two commands and then the cursor (R117). -/
def textPosOps (row col : Nat) : List Op :=
  if validCell row col then posCmds row (textPx col) ++ [.setCur (textIndex row col)] else []

/-- SETTEXTPOS (R112). -/
def execSetTextPos (row col : Nat) (s : State) : Result :=
  request 0x05 (textPosOps row col ++ [.respond (rangeStatus (validCell row col))]) s

/-- `SetPixPos(x, y)` of R115. -/
def pixPosOps (x y : Nat) : List Op :=
  if validPix x y then posCmds (pixBank x) y ++ [.setCur (pixIndex x y)] else []

/-- SETPIXPOS (R115). -/
def execSetPixPos (x y : Nat) (s : State) : Result :=
  request 0x06 (pixPosOps x y ++ [.respond (rangeStatus (validPix x y))]) s

/-- CLEAR (R116): `MemWrite(i, 1, 0x00)` for `i` in 0..503. -/
def execClear (s : State) : Result :=
  request 0x03 ((List.range Config.nFb).map (fun i => .memWrite i 0x00) ++ [.respond .done]) s

end Sys2Proof.Machine
end

