-- ==== Sys2Proof/Machine/Rasterizer.lean ====
section
/-! DEFINITION. The rasterizer: DRAWPIXEL (R131), the line-point generator (R134-R136) and DRAWLINE (R137). -/

namespace Sys2Proof.Machine

/-- `DrawPix(x, y)` (R130): SetPixPos, and on success the OR of the pixel's bit into the byte at `CUR`. -/
def drawPixOps (x y : Nat) : List Op :=
  if validPix x y then pixPosOps x y ++ [.orAtCur (pixMask x)] else []

/-- DRAWPIXEL (R131). -/
def execDrawPixel (x y : Nat) (s : State) : Result :=
  request 0x07 (drawPixOps x y ++ [.respond (rangeStatus (validPix x y))]) s

/-- The unit step of a delta (R134): -1 if it is negative, else +1. -/
def unitStep (delta : Int) : Int := if delta < 0 then -1 else 1

/-- The working registers at a line's first point (R134), with the error term of the branch that is taken:
`2*ay - ax` when `ay < ax` (R135), `ay - 2*ax` otherwise (R136). -/
def lineStart (x1 x2 y1 y2 : Nat) : LineRegs :=
  let dx : Int := (x2 : Int) - x1
  let dy : Int := (y2 : Int) - y1
  let ax : Int := dx.natAbs
  let ay : Int := dy.natAbs
  { lx := x1, ly := y1, ld := if ay < ax then 2 * ay - ax else ay - 2 * ax,
    lsx := unitStep dx, lsy := unitStep dy, lax := ax, lay := ay }

/-- One turn of the shallow branch's loop (R135). -/
def shallowStep (r : LineRegs) : LineRegs :=
  if 0 ≤ r.ld then
    { r with lx := r.lx + r.lsx, ly := r.ly + r.lsy, ld := r.ld - 2 * r.lax + 2 * r.lay }
  else { r with lx := r.lx + r.lsx, ld := r.ld + 2 * r.lay }

/-- One turn of the steep branch's loop (R136). -/
def steepStep (r : LineRegs) : LineRegs :=
  if r.ld ≤ 0 then
    { r with ly := r.ly + r.lsy, lx := r.lx + r.lsx, ld := r.ld + 2 * r.lay - 2 * r.lax }
  else { r with ly := r.ly + r.lsy, ld := r.ld - 2 * r.lax }

/-- `while X ≠ x2` (R135): the registers after each turn. `fuel` bounds the turns. -/
def shallowLoop (x2 : Int) : Nat → LineRegs → List LineRegs
  | 0, _ => []
  | fuel + 1, r => if r.lx = x2 then [] else shallowStep r :: shallowLoop x2 fuel (shallowStep r)

/-- `while Y ≠ y2` (R136). -/
def steepLoop (y2 : Int) : Nat → LineRegs → List LineRegs
  | 0, _ => []
  | fuel + 1, r => if r.ly = y2 then [] else steepStep r :: steepLoop y2 fuel (steepStep r)

/-- The working registers at each plotted point, in order (R137): shallow when `ay < ax`, steep otherwise. A line has
`max(ax, ay) + 1` points (R139), so the loops' fuel is the major delta. -/
def lineTrace (x1 x2 y1 y2 : Nat) : List LineRegs :=
  let r := lineStart x1 x2 y1 y2
  if r.lay < r.lax then r :: shallowLoop x2 r.lax.toNat r
  else r :: steepLoop y2 r.lay.toNat r

/-- `line_points(x1, x2, y1, y2)` (R137). -/
def linePoints (x1 x2 y1 y2 : Nat) : List (Int × Int) :=
  (lineTrace x1 x2 y1 y2).map (fun r => (r.lx, r.ly))

/-- One plotted point: the registers take its values, and line point `(X, Y)` is plotted as `DrawPix(Y, X)` (R133).
No coordinate of a line is negative (R139 point 5). -/
def plotOps (r : LineRegs) : List Op := .setLine r :: drawPixOps r.ly.toNat r.lx.toNat

/-- DRAWLINE (R137): the points in generation order, each status discarded, and the response OK (R138). -/
def execDrawLine (x1 x2 y1 y2 : Nat) (s : State) : Result :=
  request 0x08 ((lineTrace x1 x2 y1 y2).flatMap plotOps ++ [.respond .ok]) s

end Sys2Proof.Machine
end

