-- ==== Sys2Proof/Machine/Sequencer.lean ====
section
/-! DEFINITION. The Init/Flush sequencer: INIT (R100) and FLUSH (R105). -/

namespace Sys2Proof.Machine

/-- The reset pulse and the bus configuration, in the order of R101, R102 and R173. -/
def resetPulse : List Op :=
  [.driveRst false, .delay .lo, .driveRst true, .delay .hi, .busConfig]

/-- The six configuration commands in index order (R103). -/
def configCommands : List Op := (List.range 6).map (fun k => .send .cmd (Config.initSeq k))

/-- INIT (R100): a second INIT raises F_REINIT before anything changes. -/
def execInit (s : State) : Result :=
  if s.initDone then .next (s.begin.raiseFault (.reinit s.ri))
  else request 0x02 (resetPulse ++ configCommands ++ [.setInitDone, .respond .done]) s

/-- FLUSH's loop over `FI` (R105): `N_FB` times, send the byte at `FI` and count. -/
def flushLoop : List Op := (List.replicate Config.nFb [Op.sendFb, Op.incFi]).flatten

/-- FLUSH (R105): position at text cell (0,0) (R106), then every byte in index order (R107). -/
def execFlush (s : State) : Result :=
  request 0x04 (posCmds 0 0 ++ [.flushCur, .setFi 0] ++ flushLoop ++ [.respond .done]) s

end Sys2Proof.Machine
end

