-- ==== Sys2Proof/Machine/Dispatch.lean ====
section
/-! DEFINITION. The meaning of each request, one arm per constructor of Instr. -/

namespace Sys2Proof.Machine

def exec (i : Instr) (s : State) : Host.Outcome State Fault Refusal :=
  match i with
  | .send kind byte => Sys2Proof.Machine.execSend kind byte s
  | .init => Sys2Proof.Machine.execInit s
  | .clear => Sys2Proof.Machine.execClear s
  | .flush => Sys2Proof.Machine.execFlush s
  | .settextpos row col => Sys2Proof.Machine.execSetTextPos row col s
  | .setpixpos x y => Sys2Proof.Machine.execSetPixPos x y s
  | .drawpixel x y => Sys2Proof.Machine.execDrawPixel x y s
  | .drawline x1 x2 y1 y2 => Sys2Proof.Machine.execDrawLine x1 x2 y1 y2 s

end Sys2Proof.Machine
end

