-- ==== Sys2Proof/Machine/Port.lean ====
section
/-! DEFINITION. The host port of an idle block (R77): what it does with the word the host presents. -/

namespace Sys2Proof.Machine

/-- What an idle block does (R74, R77): with no word presented it stays idle; a word outside the encoding sets
`REFUSED`; any other word is executed. -/
def acceptRequest (s : State) : Host.Outcome State Fault Refusal :=
  match s.takeRequest with
  | none => .next s
  | some (w, s') =>
    match decode w with
    | .ok i => exec i s'
    | .error _ => .next s'.refuse

end Sys2Proof.Machine
end

