-- ==== Sys2Proof/Machine/Step.lean ====
section
/-! DEFINITION. One step of the machine: a stopped block stays stopped (R154, R155), an idle block takes the word the
host presents (R77), and a block with a request in progress polls `TC` (R94). -/

namespace Sys2Proof.Machine

/-- One step. A block whose transfer never completes stays as it is for ever (R156). -/
def step (s : State) : Host.Outcome State Fault Refusal :=
  match s.fault with
  | some r => .fault (.stopped r)
  | none =>
    if s.refused then .refused .illegalRequest
    else match s.phase with
      | .idle => acceptRequest s
      | .busy | .waitTc =>
        match s.pending with
        | some p => resume p s
        | none => .next s

/-- The word `w` of `nbits` bits is the next the host presents, before the words it has still to present. A request is
not read from memory (R62), so this is the whole of a fetch. -/
def State.withFetchWord (s : State) (nbits w : Nat) : State := s.present (tableWord nbits w)

end Sys2Proof.Machine
end

