-- ==== Sys2Proof/Machine/Assembler.lean ====
section
/-! DEFINITION. The assembler's text (R78, R79): one line of characters to one request word. -/

namespace Sys2Proof.Machine

/-- Why a line does not assemble. -/
inductive AsmError where
  /-- A literal outside 0..255 (R78). -/
  | outOfRange
  /-- Text that R78 and R79 give no form. -/
  | noSuchForm
  deriving DecidableEq, Repr

/-- The text before a comment (R78: `;` starts one). -/
def dropComment (line : List Char) : List Char := line.takeWhile (· != ';')

/-- Whether a character belongs to a mnemonic or a literal. -/
def isWordChar (c : Char) : Bool := c.isAlphanum

/-- The words and the punctuation marks of a line; blanks only separate. `acc` is the word being read, last character
first. -/
def tokens : List Char → List Char → List (List Char)
  | acc, [] => if acc.isEmpty then [] else [acc.reverse]
  | acc, c :: cs =>
    if isWordChar c then tokens (c :: acc) cs
    else (if acc.isEmpty then [] else [acc.reverse]) ++
      (if c = ' ' ∨ c = '\t' then [] else [[c]]) ++ tokens [] cs

/-- The value of one digit in base 16, either case. -/
def digitValue (c : Char) : Option Nat :=
  if '0' ≤ c ∧ c ≤ '9' then some (c.toNat - '0'.toNat)
  else if 'a' ≤ c ∧ c ≤ 'f' then some (c.toNat - 'a'.toNat + 10)
  else if 'A' ≤ c ∧ c ≤ 'F' then some (c.toNat - 'A'.toNat + 10)
  else none

/-- The value of a string of digits, `acc` being that of the digits before. -/
def digitsValue (base : Nat) : Nat → List Char → Option Nat
  | acc, [] => some acc
  | acc, c :: cs =>
    match digitValue c with
    | some d => if d < base then digitsValue base (acc * base + d) cs else none
    | none => none

/-- A decimal or `0x` hexadecimal literal (R78); none for other text. -/
def literalValue : List Char → Option Nat
  | [] => none
  | '0' :: 'x' :: [] => none
  | '0' :: 'x' :: c :: cs => digitsValue 16 0 (c :: cs)
  | c :: cs => digitsValue 10 0 (c :: cs)

/-- A literal as an operand (R78: in 0..255). -/
def operand (word : List Char) : Except AsmError Nat :=
  match literalValue word with
  | some n => if n < 256 then .ok n else .error .outOfRange
  | none => .error .noSuchForm

/-- The line of one operand. -/
def operands1 (x : List Char) (f : Nat → AsmLine) : Except AsmError (Option AsmLine) :=
  match operand x with
  | .ok x => .ok (some (f x))
  | .error e => .error e

/-- The line of two operands. -/
def operands2 (x y : List Char) (f : Nat → Nat → AsmLine) : Except AsmError (Option AsmLine) :=
  match operand x with
  | .ok x => operands1 y (f x)
  | .error e => .error e

/-- The line of four operands. -/
def operands4 (x1 x2 y1 y2 : List Char) (f : Nat → Nat → Nat → Nat → AsmLine) : Except AsmError (Option AsmLine) :=
  match operand x1 with
  | .ok x1 =>
    match operand x2 with
    | .ok x2 => operands2 y1 y2 (f x1 x2)
    | .error e => .error e
  | .error e => .error e

/-- A mnemonic in capitals (R78: mnemonics are case-insensitive). -/
def mnemonic (word : List Char) : List Char := word.map Char.toUpper

/-- The operands of a line after its mnemonic, commas between them (R78, R79). -/
def parseOperands (mnemonic : List Char) (rest : List (List Char)) : Except AsmError (Option AsmLine) :=
  match mnemonic, rest with
  | ['S', 'E', 'N', 'D'], [['C', 'M', 'D'], [','], b] => operands1 b (fun b => .core (.send .cmd (.ofNat 8 b)))
  | ['S', 'E', 'N', 'D'], [['D', 'A', 'T', 'A'], [','], b] => operands1 b (fun b => .core (.send .data (.ofNat 8 b)))
  | ['S', 'E', 'N', 'D', 'C', 'M', 'D'], [b] => operands1 b (fun b => .sendcmd (.ofNat 8 b))
  | ['S', 'E', 'N', 'D', 'D', 'A', 'T', 'A'], [b] => operands1 b (fun b => .senddata (.ofNat 8 b))
  | ['I', 'N', 'I', 'T'], [] => .ok (some (.core .init))
  | ['C', 'L', 'E', 'A', 'R'], [] => .ok (some (.core .clear))
  | ['F', 'L', 'U', 'S', 'H'], [] => .ok (some (.core .flush))
  | ['S', 'E', 'T', 'T', 'E', 'X', 'T', 'P', 'O', 'S'], [row, [','], col] =>
    operands2 row col (fun row col => .core (.settextpos row col))
  | ['S', 'E', 'T', 'P', 'I', 'X', 'P', 'O', 'S'], [x, [','], y] => operands2 x y (fun x y => .core (.setpixpos x y))
  | ['D', 'R', 'A', 'W', 'P', 'I', 'X', 'E', 'L'], [x, [','], y] => operands2 x y (fun x y => .core (.drawpixel x y))
  | ['D', 'R', 'A', 'W', 'L', 'I', 'N', 'E'], [x1, [','], x2, [','], y1, [','], y2] =>
    operands4 x1 x2 y1 y2 (fun x1 x2 y1 y2 => .core (.drawline x1 x2 y1 y2))
  | ['L', 'I', 'N', 'E'], [['('], xa, [','], ya, [')'], ['-'], ['('], xb, [','], yb, [')']] =>
    operands4 xa ya xb yb AsmLine.line
  | _, _ => .error .noSuchForm

/-- One line of text as a line of the assembler; none for a line with nothing on it. -/
def parseLine (line : List Char) : Except AsmError (Option AsmLine) :=
  match tokens [] (dropComment line) with
  | [] => .ok none
  | m :: rest => parseOperands (mnemonic m) rest

/-- One line of text to one request word (R78): none for a line with nothing on it. -/
def assembleText (line : List Char) : Except AsmError (Option ReqWord) :=
  match parseLine line with
  | .ok (some l) => .ok (some (encode l.expand))
  | .ok none => .ok none
  | .error e => .error e

end Sys2Proof.Machine
end

