-- ==== Sys2Proof/Safety.lean ====
section
/-! DEFINITION. What claims speak of: a good end of a run and its observation (R183), a responsive engine (R96), and
the invariant that every step keeps. -/

namespace Sys2Proof.Machine

/-- A run of `n` request words has ended well (R183). -/
def State.endsWell (s : State) (n : Nat) : Prop :=
  s.ri = n ∧ s.phase = .idle ∧ s.fault = none ∧ s.refused = false

/-- The observation of a run (R35, R183): `HIST`, `FB` and `CUR`. -/
def State.observe (s : State) : List Event × List Byte × Nat :=
  (s.hist, (List.range Config.nFb).map s.fbByte, s.cur)

/-- The engine completes each of the next `n` transfers at once (R96). -/
def State.promptFor (s : State) (n : Nat) : Bool := (s.engine.take n).all (· == some 0)

/-- The engine completes every transfer at last: the weak fairness of R96. -/
def State.engineFair (s : State) : Bool := s.engine.all (·.isSome)

/-- The points of a line whose pixel is on the display, in order, each as the pixel `(x, y) = (Y, X)` it is plotted at
(R133, R137). -/
def plottedPixels (x1 x2 y1 y2 : Nat) : List (Nat × Nat) :=
  ((linePoints x1 x2 y1 y2).map (fun p => (p.2.toNat, p.1.toNat))).filter
    (fun q => decide (q.1 ≤ 47) && decide (q.2 ≤ 83))

/-- The line writes of one whole Send, in the order of R92. -/
def envelope (k : Kind) (b : Byte) : List LineChange :=
  [.sceN false, .dc (modeLevel k), .sdr b, .tcDone, .sceN true]

/-- Where a Send's envelope stands (R92). -/
inductive FramePos where
  /-- Outside every Send: `SCE_N` is 1. -/
  | between
  /-- `SCE_N` is 0. -/
  | selected
  /-- `DC` has its level. -/
  | moded (dc : Bool)
  /-- `SDR` is written, and the block waits for `TC`. -/
  | shifting (dc : Bool) (b : Byte)
  /-- `TC` is 1, and `SCE_N` still 0. -/
  | shifted (dc : Bool) (b : Byte)
  deriving DecidableEq, Repr

/-- One line write as R92 allows it, with the mode level and the byte of every envelope ended so far; none for a write
out of its order. `RST_N` moves outside every Send only (R101). -/
def frameStep : FramePos × List (Bool × Byte) → LineChange → Option (FramePos × List (Bool × Byte))
  | (.between, done), .sceN false => some (.selected, done)
  | (.selected, done), .dc l => some (.moded l, done)
  | (.moded l, done), .sdr b => some (.shifting l b, done)
  | (.shifting l b, done), .tcDone => some (.shifted l b, done)
  | (.shifted l b, done), .sceN true => some (.between, done ++ [(l, b)])
  | (.between, done), .rstN _ => some (.between, done)
  | _, _ => none

/-- The line writes read as envelopes (R92), from a position and the bytes framed before. -/
def readWave : FramePos × List (Bool × Byte) → List LineChange → Option (FramePos × List (Bool × Byte))
  | p, [] => some p
  | p, c :: cs =>
    match frameStep p c with
    | some q => readWave q cs
    | none => none

/-- The bytes of the `BUS` events with the mode level that encodes their kind (R93). -/
def busBytes (h : List Event) : List (Bool × Byte) :=
  h.filterMap fun e =>
    match e with
    | .bus k b => some (modeLevel k, b)
    | _ => none

/-- The line writes of a state as envelopes, from no line written. -/
def State.frame (s : State) : Option (FramePos × List (Bool × Byte)) := readWave (.between, []) s.wave

/-- Whether an event is a response. -/
def Event.isRsp : Event → Bool
  | .rsp _ => true
  | _ => false

/-- The actions of a request from some point on: every index they name is in range (R56), they end with the one
response, and INIT's mark comes after a Send or the bus configuration. `sent` says whether a Send or the bus
configuration of this request has passed, and `fi` is what `FI` holds; a request that sends writes `FB` through
`CUR` only. -/
def opsSafe : Bool → Nat → List Op → Bool
  | _, _, [] => false
  | _, fi, .send _ _ :: rest => opsSafe true fi rest
  | _, fi, .sendFb :: rest => decide (fi < Config.nFb) && opsSafe true fi rest
  | sent, _, .setFi n :: rest => decide (n ≤ Config.nFb) && opsSafe sent n rest
  | sent, fi, .incFi :: rest => decide (fi < Config.nFb) && opsSafe sent (fi + 1) rest
  | sent, fi, .setCur n :: rest => decide (n < Config.nFb) && opsSafe sent fi rest
  | sent, fi, .flushCur :: rest => opsSafe sent fi rest
  | sent, fi, .orAtCur _ :: rest => opsSafe sent fi rest
  | sent, fi, .memWrite i _ :: rest => !sent && decide (i < Config.nFb) && opsSafe sent fi rest
  | sent, fi, .setLine _ :: rest => opsSafe sent fi rest
  | sent, fi, .driveRst _ :: rest => opsSafe sent fi rest
  | sent, fi, .delay _ :: rest => opsSafe sent fi rest
  | _, fi, .busConfig :: rest => opsSafe true fi rest
  | sent, fi, .setInitDone :: rest => sent && opsSafe sent fi rest
  | _, _, .respond _ :: rest => rest.isEmpty

/-- What the state of a held request looks like (R90, R92, R94): `SCE_N` asserted, the lines as the Send drove them,
`TC = 0`, the line writes the start of one envelope after whole ones (R92), and a rest that is safe to run. -/
structure State.Waiting (s : State) (p : Pending) : Prop where
  phase : s.phase = .waitTc
  sceN : s.sceN = false
  dc : s.dc = modeLevel p.kind
  sdr : s.sdr = p.byte
  tc : s.tc = false
  busReady : s.busReady = true
  noFault : s.fault = none
  frame : s.frame = some (.shifting s.dc s.sdr, busBytes s.hist)
  rest : opsSafe true s.fi p.rest = true

/-- What the state looks like with no request held (R27, R34, R92): `SCE_N` is 1, every byte sent so far has its own
envelope, and the phase is IDLE but for a request
that a fault ended. -/
structure State.Settled (s : State) : Prop where
  sceN : s.sceN = true
  frame : s.frame = some (.between, busBytes s.hist)
  phase : s.phase = .idle ∨ (s.phase = .busy ∧ s.fault ≠ none)

/-- The invariant of the block: the framebuffer's cells are canonical and in range, `CUR` and `FI` index `FB`
(R22, R37), `INIT_DONE` implies `BUS_READY` (R100), `RI` counts the responses (R24), and the lines and the phase
agree with whether a request is held. -/
structure State.Inv (s : State) : Prop where
  fbWf : s.fb.wf = true
  curRange : s.cur < Config.nFb
  fiRange : s.fi ≤ Config.nFb
  initReady : s.initDone = true → s.busReady = true
  riCounts : s.hist.countP Event.isRsp = s.ri
  waiting : ∀ p, s.pending = some p → s.Waiting p
  settled : s.pending = none → s.Settled

end Sys2Proof.Machine
end

