-- ==== Sys2Proof/Certificates/Slice0/Obligations.lean ====
section
/-! DEFINITION. The statements about the model, each a rule of the spec or a property of the whole machine. In the
equations of states, `engine` and `pending` are the model's record of the serial engine and of a held request
(notes/assumptions/4.md, 5.md, 16.md), `wave` its record of the line writes (19.md), and that `line` and `FI` keep their
values between requests is its choice (20.md). -/

open Sys2Proof Sys2Proof.Machine

/-! ### Encoding -/

/-- R80: the worked encodings decode to their requests, and the listed refused words are refused. -/
def Obligations.WorkedEncodingsDecode : Prop :=
  decode 0x0100210000 = .ok (.send .cmd 0x21) ∧ decode 0x0101FF0000 = .ok (.send .data 0xFF) ∧
  decode 0x0200000000 = .ok .init ∧ decode 0x0300000000 = .ok .clear ∧ decode 0x0400000000 = .ok .flush ∧
  decode 0x05050D0000 = .ok (.settextpos 5 13) ∧ decode 0x062F530000 = .ok (.setpixpos 47 83) ∧
  decode 0x07140A0000 = .ok (.drawpixel 20 10) ∧ decode 0x0800070000 = .ok (.drawline 0 7 0 0) ∧
  decode 0x080A0A1414 = .ok (.drawline 10 10 20 20) ∧
  (AsmLine.line 0 0 2 1).assemble = some 0x0800020001 ∧
  (∀ i, decode 0x0000000000 ≠ .ok i) ∧ (∀ i, decode 0x0102000000 ≠ .ok i) ∧ (∀ i, decode 0x0300000001 ≠ .ok i)

/-- R70-R74: every request whose operands fit their fields is what its own word decodes to, every operand at every
value. -/
def Obligations.DecodeOfEncode : Prop :=
  ∀ i : Instr, i.wellFormed = true → decode (encode i) = .ok i

/-- R70-R75: a word that decodes is the word of the request it decodes to, and that request is well formed. -/
def Obligations.EncodeOfDecode : Prop :=
  ∀ (w : ReqWord) (i : Instr), decode w = .ok i → i.wellFormed = true ∧ encode i = w

/-- R75: a word is refused exactly when its opcode is reserved, an operand bit its format does not use is nonzero, or
it is a SEND with `A` in 0x02..0xFF. -/
def Obligations.IllegalWordsAreRefused : Prop :=
  ∀ w : ReqWord, (∃ e, decode w = .error e) ↔
    (w.opc = 0x00 ∨ 0x09 ≤ w.opc.toNat) ∨
    ((w.opc = 0x02 ∨ w.opc = 0x03 ∨ w.opc = 0x04) ∧ (w.a ≠ 0 ∨ w.b ≠ 0 ∨ w.c ≠ 0 ∨ w.d ≠ 0)) ∨
    ((w.opc = 0x05 ∨ w.opc = 0x06 ∨ w.opc = 0x07 ∨ w.opc = 0x01) ∧ (w.c ≠ 0 ∨ w.d ≠ 0)) ∨
    (w.opc = 0x01 ∧ 0x02 ≤ w.a.toNat)

/-- R72: every operand of a word that decodes is its field as an unsigned 8-bit integer. -/
def Obligations.OperandsAreZeroExtendedFields : Prop :=
  ∀ (w : ReqWord) (i : Instr), decode w = .ok i →
    match i with
    | .send k b => b = w.b ∧ (k = .cmd ↔ w.a = 0x00) ∧ (k = .data ↔ w.a = 0x01)
    | .init | .clear | .flush => True
    | .settextpos row col => row = w.a.toNat ∧ col = w.b.toNat
    | .setpixpos x y | .drawpixel x y => x = w.a.toNat ∧ y = w.b.toNat
    | .drawline x1 x2 y1 y2 => x1 = w.a.toNat ∧ x2 = w.b.toNat ∧ y1 = w.c.toNat ∧ y2 = w.d.toNat

/-- R79: the pseudo-instructions, their expansions, and that there is no other. -/
def Obligations.PseudoInstructionsExpand : Prop :=
  ∀ (b : Byte) (xa ya xb yb : Nat),
    (AsmLine.sendcmd b).expand = .send .cmd b ∧ (AsmLine.senddata b).expand = .send .data b ∧
    (AsmLine.line xa ya xb yb).expand = .drawline xa xb ya yb ∧
    ∀ l : AsmLine, (∃ i, l = .core i) ∨ (∃ b, l = .sendcmd b) ∨ (∃ b, l = .senddata b) ∨
      ∃ xa ya xb yb, l = .line xa ya xb yb

/-- R78, R80: lines of the assembler's text and their words: operands decimal and hexadecimal, a mnemonic in small
letters, a comment, an empty line; a literal above 255 and text of no form are errors. -/
def Obligations.TextLinesAssemble : Prop :=
  assembleText "SEND CMD, 0x21".toList = .ok (some 0x0100210000) ∧
  assembleText "SETTEXTPOS 5, 13".toList = .ok (some 0x05050D0000) ∧
  assembleText "drawline 10, 10, 20, 20 ; one point".toList = .ok (some 0x080A0A1414) ∧
  assembleText "LINE (0,0)-(2,1)".toList = .ok (some 0x0800020001) ∧
  assembleText "; nothing".toList = .ok none ∧
  assembleText "SETPIXPOS 47, 256".toList = .error .outOfRange ∧
  assembleText "CLEAR 0".toList = .error .noSuchForm

/-! ### Reset, the step and the stops -/

/-- R170, R171: the values the spec states for reset, each byte of `FB` its draw, and the block ready for its first
request. Nothing is said of the registers whose reset value the spec leaves unspecified. -/
def Obligations.ResetState : Prop :=
  State.reset.cur = 0 ∧ State.reset.sceN = true ∧ State.reset.tc = false ∧ State.reset.busReady = false ∧
  State.reset.initDone = false ∧ State.reset.phase = .idle ∧ State.reset.hist = [] ∧ State.reset.ri = 0 ∧
  State.reset.fault = none ∧ State.reset.refused = false ∧ State.reset.reqReady ∧
  ∀ i, State.reset.fbByte i = Config.fbReset i

/-- The invariant holds after reset. -/
def Obligations.ResetMeetsInvariant : Prop := State.reset.Inv

/-- Every step keeps the invariant, from every state that meets it (R22, R24, R27, R34, R37, R56, R92, R100). -/
def Obligations.StepKeepsInvariant : Prop :=
  ∀ s t : State, s.Inv → step s = .next t → t.Inv

/-- R77: when `REQ_READY` and the presented word decodes, a step takes the word and is the execution of its request. -/
def Obligations.StepRunsDecodedRequest : Prop :=
  ∀ (s : State) (w : ReqWord) (later : List ReqWord) (i : Instr),
    s.reqReady → s.req = w :: later → decode w = .ok i → step s = exec i { s with req := later }

/-- R74, R77, R155: a word outside the encoding sets `REFUSED` and changes nothing else of the block; after it the block
takes no step. That the word leaves the host's list is the model's choice (notes/assumptions/8.md), and that the stop is
the step after the refusal is its reading (7.md). -/
def Obligations.IllegalWordIsRefused : Prop :=
  ∀ (s : State) (w : ReqWord) (later : List ReqWord) (e : IllegalRequest),
    s.reqReady → s.req = w :: later → decode w = .error e →
    step s = .next { s with req := later, refused := true } ∧
    step { s with req := later, refused := true } = .refused .illegalRequest

/-- R154: in a state with a recorded fault the block takes no step (so nothing clears the fault), `REQ_READY = 0`, and
the state is no good end of a run. -/
def Obligations.FaultIsFinal : Prop :=
  ∀ (s : State) (r : FaultRecord), s.fault = some r →
    step s = .fault (.stopped r) ∧ ¬ s.reqReady ∧ ∀ n, ¬ s.endsWell n

/-- R77, R94: a word leaves the host's port only when `REQ_READY = 1`, and then it is the presented one; a block that
waits for `TC`, or has no word presented, takes none. -/
def Obligations.WordsAreTakenOnlyWhenReady : Prop :=
  ∀ s t : State, step s = .next t →
    (s.reqReady ∧ ∃ w, s.req = w :: t.req) ∨ t.req = s.req

/-- R171, R77: an idle block with no word presented stays as it is. -/
def Obligations.IdleBlockStaysIdle : Prop :=
  ∀ s : State, s.reqReady → s.req = [] → step s = .next s

/-- R77: the response codes. -/
def Obligations.ResponseCodes : Prop :=
  Response.code .done = 0b00 ∧ Response.code .ok = 0b01 ∧ Response.code .oor = 0b10 ∧
  ∀ r : Response, r.code ≠ 0b11

/-! ### What each request does -/

/-- R90, R91, R92, R95: SEND with the bus configured and a transfer that completes: the line writes of one envelope in
their order, one bus event, DONE. The record of the line writes is the model's own (notes/assumptions/19.md), as are
`engine` and `pending` (4.md, 5.md, 16.md). -/
def Obligations.SendFramesOneByte : Prop :=
  ∀ (s : State) (k : Kind) (b : Byte), s.busReady = true → s.promptFor 1 = true →
    exec (.send k b) s = .next { s with
      phase := .idle, pending := none, sceN := true,
      dc := (match k with | .cmd => Config.dcCmd | .data => !Config.dcCmd), sdr := b, tc := true,
      engine := s.engine.drop 1, ri := s.ri + 1, hist := s.hist ++ [.bus k b, .rsp .done],
      wave := s.wave ++ [.sceN false, .dc (match k with | .cmd => Config.dcCmd | .data => !Config.dcCmd), .sdr b,
        .tcDone, .sceN true] }

/-- R100-R103, R92: INIT's twelve events, the lines (the reset line low and high, then one envelope for each of the six
commands), and the two marks; `FB` and `CUR` are not touched. -/
def Obligations.InitConfiguresTheController : Prop :=
  ∀ s : State, s.initDone = false → s.promptFor 6 = true →
    exec .init s = .next { s with
      phase := .idle, pending := none, sceN := true, dc := Config.dcCmd, sdr := Config.initSeq 5, tc := true,
      rstN := true, busReady := true, initDone := true, engine := s.engine.drop 6, ri := s.ri + 1,
      wave := s.wave ++ ([.rstN false, .rstN true] ++
        (List.range 6).flatMap (fun k => envelope .cmd (Config.initSeq k))),
      hist := s.hist ++ [.rst false, .delay .lo, .rst true, .delay .hi, .busCfg,
        .bus .cmd (Config.initSeq 0), .bus .cmd (Config.initSeq 1), .bus .cmd (Config.initSeq 2),
        .bus .cmd (Config.initSeq 3), .bus .cmd (Config.initSeq 4), .bus .cmd (Config.initSeq 5), .rsp .done] }

/-- R153: a second INIT records F_REINIT; no event, no response, no line changes, and `RI` is unchanged. The phase
stays BUSY, as the request never responds (notes/assumptions/6.md). -/
def Obligations.SecondInitFaults : Prop :=
  ∀ s : State, s.initDone = true →
    exec .init s = .next { s with phase := .busy, pending := none, fault := some (.reinit s.ri) }

/-- R105-R108, R92: FLUSH sends the two positioning commands of cell (0,0) and then every byte of `FB` in index order,
each byte in an envelope of its own, and leaves `FB` as it was. That `FI` keeps 504 afterwards is the model's choice
(notes/assumptions/20.md). -/
def Obligations.FlushSendsTheFramebuffer : Prop :=
  ∀ s : State, s.busReady = true → s.promptFor 506 = true →
    exec .flush s = .next { s with
      phase := .idle, pending := none, sceN := true, dc := !Config.dcCmd, sdr := s.fbByte 503, tc := true,
      fi := 504, cur := (match Config.flushCursor with | .keep => s.cur | .zero => 0),
      engine := s.engine.drop 506, ri := s.ri + 1,
      hist := s.hist ++ ([.bus .cmd (Config.cmdBank 0), .bus .cmd (Config.cmdCol 0)] ++
        (List.range 504).map (fun i => Event.bus .data (s.fbByte i)) ++ [.rsp .done]),
      wave := s.wave ++ (envelope .cmd (Config.cmdBank 0) ++ envelope .cmd (Config.cmdCol 0) ++
        (List.range 504).flatMap (fun i => envelope .data (s.fbByte i))) }

/-- R111, R112, R118: SETTEXTPOS of a valid cell. -/
def Obligations.SetTextPosPositions : Prop :=
  ∀ (s : State) (row col : Nat), row ≤ 5 → col ≤ 13 → s.busReady = true → s.promptFor 2 = true →
    exec (.settextpos row col) s = .next { s with
      phase := .idle, pending := none, sceN := true, dc := Config.dcCmd, sdr := Config.cmdCol (col * 6), tc := true,
      cur := col * 6 + row * 84, engine := s.engine.drop 2, ri := s.ri + 1,
      wave := s.wave ++ (envelope .cmd (Config.cmdBank row) ++ envelope .cmd (Config.cmdCol (col * 6))),
      hist := s.hist ++ [.bus .cmd (Config.cmdBank row), .bus .cmd (Config.cmdCol (col * 6)), .rsp .ok] }

/-- R113-R115: SETPIXPOS of a valid pixel. -/
def Obligations.SetPixPosPositions : Prop :=
  ∀ (s : State) (x y : Nat), x ≤ 47 → y ≤ 83 → s.busReady = true → s.promptFor 2 = true →
    exec (.setpixpos x y) s = .next { s with
      phase := .idle, pending := none, sceN := true, dc := Config.dcCmd, sdr := Config.cmdCol y, tc := true,
      cur := y + x / 8 * 84, engine := s.engine.drop 2, ri := s.ri + 1,
      wave := s.wave ++ (envelope .cmd (Config.cmdBank (x / 8)) ++ envelope .cmd (Config.cmdCol y)),
      hist := s.hist ++ [.bus .cmd (Config.cmdBank (x / 8)), .bus .cmd (Config.cmdCol y), .rsp .ok] }

/-- R152, R117, R157: SETTEXTPOS, SETPIXPOS and DRAWPIXEL out of range respond OOR and do nothing else, in every
state, the bus configured or not. -/
def Obligations.OutOfRangeIsANoOp : Prop :=
  ∀ (s : State) (i : Instr),
    (match i with
      | .settextpos row col => 6 ≤ row ∨ 14 ≤ col
      | .setpixpos x y | .drawpixel x y => 48 ≤ x ∨ 84 ≤ y
      | _ => False) →
    exec i s = .next { s with phase := .idle, pending := none, ri := s.ri + 1, hist := s.hist ++ [.rsp .oor] }

/-- R116: CLEAR completes in every state, the bus configured or not; every byte of `FB` is 0 and nothing but `FB`,
the response and the request's own bookkeeping changes. -/
def Obligations.ClearZeroesTheFramebuffer : Prop :=
  ∀ s : State, ∃ fb : Memory,
    exec .clear s = .next { s with
      fb := fb, phase := .idle, pending := none, ri := s.ri + 1, hist := s.hist ++ [.rsp .done] } ∧
    ∀ i, i < 504 → State.fbByte { s with fb := fb } i = 0

/-- R130, R131: DRAWPIXEL of a valid pixel sets bit `x mod 8` of the byte at `y + (x div 8)*84`, leaves every other
bit of `FB` as it was, and does not advance `CUR`. -/
def Obligations.DrawPixelLightsOnePixel : Prop :=
  ∀ (s : State) (x y : Nat), x ≤ 47 → y ≤ 83 → s.busReady = true → s.promptFor 2 = true → ∃ fb : Memory,
    exec (.drawpixel x y) s = .next { s with
      fb := fb, phase := .idle, pending := none, sceN := true, dc := Config.dcCmd, sdr := Config.cmdCol y, tc := true,
      cur := y + x / 8 * 84, engine := s.engine.drop 2, ri := s.ri + 1,
      wave := s.wave ++ (envelope .cmd (Config.cmdBank (x / 8)) ++ envelope .cmd (Config.cmdCol y)),
      hist := s.hist ++ [.bus .cmd (Config.cmdBank (x / 8)), .bus .cmd (Config.cmdCol y), .rsp .ok] } ∧
    ∀ a b, b < 8 → (State.fbByte { s with fb := fb } a).getLsbD b =
      ((s.fbByte a).getLsbD b || (decide (a = y + x / 8 * 84) && decide (b = x % 8)))

/-- R137, R138, R143, R95: DRAWLINE with the bus configured: two command bytes for each point on the display, each in an
envelope of its own, and no other bus event, the response OK, the bits of those pixels set and no other bit of `FB`
changed, `CUR` and the lines as the last of them leaves them (all unchanged if there is none), and every other register but the line's own unchanged.
The response OK is the spec's own decision (D19, notes/assumptions/11.md). -/
def Obligations.DrawLinePlotsItsPoints : Prop :=
  ∀ (s : State) (x1 x2 y1 y2 : Nat), s.busReady = true →
    s.promptFor (2 * (plottedPixels x1 x2 y1 y2).length) = true →
    ∃ t : State, exec (.drawline x1 x2 y1 y2) s = .next t ∧
      t.hist = s.hist ++ ((plottedPixels x1 x2 y1 y2).flatMap (fun q =>
        [Event.bus .cmd (Config.cmdBank (q.1 / 8)), Event.bus .cmd (Config.cmdCol q.2)]) ++ [.rsp .ok]) ∧
      t.wave = s.wave ++ (plottedPixels x1 x2 y1 y2).flatMap (fun q =>
        envelope .cmd (Config.cmdBank (q.1 / 8)) ++ envelope .cmd (Config.cmdCol q.2)) ∧
      t.cur = ((plottedPixels x1 x2 y1 y2).getLast?.map (fun q => q.2 + q.1 / 8 * 84)).getD s.cur ∧
      (∀ a b, b < 8 → (t.fbByte a).getLsbD b =
        ((s.fbByte a).getLsbD b ||
          (plottedPixels x1 x2 y1 y2).any (fun q => decide (a = q.2 + q.1 / 8 * 84) && decide (b = q.1 % 8)))) ∧
      (t.sceN, t.dc, t.sdr, t.tc) = (match (plottedPixels x1 x2 y1 y2).getLast? with
        | none => (s.sceN, s.dc, s.sdr, s.tc)
        | some q => (true, Config.dcCmd, Config.cmdCol q.2, true)) ∧
      t.phase = .idle ∧ t.pending = none ∧ t.ri = s.ri + 1 ∧
      t.engine = s.engine.drop (2 * (plottedPixels x1 x2 y1 y2).length) ∧
      t.rstN = s.rstN ∧ t.busReady = s.busReady ∧ t.initDone = s.initDone ∧ t.fi = s.fi ∧ t.fault = s.fault ∧
      t.refused = s.refused ∧ t.req = s.req

/-- R137, R138, R157: a line with no point on the display responds OK in every state, the bus configured or not; it
changes nothing but the response, its working registers and the request's bookkeeping. -/
def Obligations.OffScreenLineRespondsOk : Prop :=
  ∀ (s : State) (x1 x2 y1 y2 : Nat), plottedPixels x1 x2 y1 y2 = [] → ∃ r : LineRegs,
    exec (.drawline x1 x2 y1 y2) s = .next { s with
      line := r, phase := .idle, pending := none, ri := s.ri + 1, hist := s.hist ++ [.rsp .ok] }

/-! ### Faults and hangs -/

/-- R153, R174, R157: a request that sends while `BUS_READY = 0` records F_BUS_NOT_READY with the request index, the
opcode, and the kind and byte of the Send attempted: no event, no response, no line, `FB` or `CUR` changes, `RI` is
unchanged. The phase stays BUSY (notes/assumptions/6.md). -/
def Obligations.SendBeforeInitFaults : Prop :=
  ∀ (s : State) (i : Instr) (k : Kind) (b : Byte), s.busReady = false →
    (match i with
      | .send k' b' => k = k' ∧ b = b'
      | .flush => k = .cmd ∧ b = Config.cmdBank 0
      | .settextpos row col => row ≤ 5 ∧ col ≤ 13 ∧ k = .cmd ∧ b = Config.cmdBank row
      | .setpixpos x y | .drawpixel x y => x ≤ 47 ∧ y ≤ 83 ∧ k = .cmd ∧ b = Config.cmdBank (x / 8)
      | _ => False) →
    exec i s = .next { s with
      phase := .busy, pending := none, fault := some (.busNotReady s.ri i.opcode k b) }

/-- R137, R157: DRAWLINE before INIT faults at its first point on the display; only its working registers have been
written. The phase stays BUSY (notes/assumptions/6.md). -/
def Obligations.LineBeforeInitFaults : Prop :=
  ∀ (s : State) (x1 x2 y1 y2 : Nat) (q : Nat × Nat), s.busReady = false →
    (plottedPixels x1 x2 y1 y2).head? = some q → ∃ r : LineRegs,
      exec (.drawline x1 x2 y1 y2) s = .next { s with
        line := r, phase := .busy, pending := none,
        fault := some (.busNotReady s.ri 0x08 .cmd (Config.cmdBank (q.1 / 8))) }

/-- R90, R92, R94, R156, R157: every request that sends (INIT, too, which configures the bus itself) is held in WAIT_TC
at its first Send when that transfer never completes: `SCE_N`, `DC` and `SDR` driven in their order and `TC = 0`, no bus
event and no response, `FB`, `CUR` and the marks as they were (INIT: its five events before the first Send, the reset
line, and `BUS_READY`), not ready, and so at every later step. -/
def Obligations.DeadEngineHangsSend : Prop :=
  ∀ (s : State) (i : Instr) (k : Kind) (b : Byte) (later : List (Option Nat)), s.fault = none → s.refused = false →
    s.engine = none :: later →
    (match i with
      | .send k' b' => s.busReady = true ∧ k = k' ∧ b = b'
      | .init => s.initDone = false ∧ k = .cmd ∧ b = Config.initSeq 0
      | .clear => False
      | .flush => s.busReady = true ∧ k = .cmd ∧ b = Config.cmdBank 0
      | .settextpos row col => s.busReady = true ∧ row ≤ 5 ∧ col ≤ 13 ∧ k = .cmd ∧ b = Config.cmdBank row
      | .setpixpos x y | .drawpixel x y => s.busReady = true ∧ x ≤ 47 ∧ y ≤ 83 ∧ k = .cmd ∧ b = Config.cmdBank (x / 8)
      | .drawline x1 x2 y1 y2 => s.busReady = true ∧ k = .cmd ∧
        ∃ q, (plottedPixels x1 x2 y1 y2).head? = some q ∧ b = Config.cmdBank (q.1 / 8)) →
    ∃ t : State, exec i s = .next t ∧ t.phase = .waitTc ∧ t.sceN = false ∧
      t.dc = (match k with | .cmd => Config.dcCmd | .data => !Config.dcCmd) ∧ t.sdr = b ∧ t.tc = false ∧
      t.wave = s.wave ++ ((if i = .init then [.rstN false, .rstN true] else []) ++
        [.sceN false, .dc (match k with | .cmd => Config.dcCmd | .data => !Config.dcCmd), .sdr b]) ∧
      t.hist = s.hist ++ (if i = .init then [.rst false, .delay .lo, .rst true, .delay .hi, .busCfg] else []) ∧
      t.fb = s.fb ∧ t.cur = s.cur ∧ t.initDone = s.initDone ∧ t.busReady = true ∧ t.ri = s.ri ∧ t.fault = none ∧
      t.refused = false ∧ ¬ t.reqReady ∧ step t = .next t

/-- R156: whatever request is held, if its transfer never completes the block stays in WAIT_TC for ever. -/
def Obligations.DeadEngineHangsForEver : Prop :=
  ∀ (s : State) (p : Pending) (later : List (Option Nat)) (n : Nat), s.Inv → s.refused = false →
    s.pending = some p → s.engine = none :: later →
    Host.Core.run core n s = .next s ∧ s.phase = .waitTc ∧ ¬ s.reqReady

/-! ### Frames -/

/-- R55: SEND, INIT, FLUSH, SETTEXTPOS and SETPIXPOS store nothing: every byte of `FB` reads as before, whether the
request completes, faults or is held. -/
def Obligations.NonDrawingRequestsKeepTheFramebuffer : Prop :=
  ∀ (s t : State) (i : Instr),
    (match i with
      | .send _ _ | .init | .flush | .settextpos _ _ | .setpixpos _ _ => True
      | .clear | .drawpixel _ _ | .drawline _ _ _ _ => False) →
    exec i s = .next t → ∀ a, t.fbByte a = s.fbByte a

/-- R131, R137: DRAWPIXEL and DRAWLINE store only at the bytes `pix_index` gives for their valid pixels; every other
byte reads as before, whether the request completes, faults or is held. -/
def Obligations.DrawingStoresOnlyAtItsPixels : Prop :=
  ∀ (s t : State) (a : Nat),
    (∀ x y, exec (.drawpixel x y) s = .next t → (validPix x y = true → a ≠ pixIndex x y) →
      t.fbByte a = s.fbByte a) ∧
    (∀ x1 x2 y1 y2, exec (.drawline x1 x2 y1 y2) s = .next t →
      (∀ q ∈ plottedPixels x1 x2 y1 y2, a ≠ pixIndex q.1 q.2) → t.fbByte a = s.fbByte a)

/-- R22: SEND, INIT and CLEAR never write `CUR`; every other request leaves it, sets it to an index of `FB` its
operands give, or (FLUSH with ZERO) to 0. -/
def Obligations.CursorWriters : Prop :=
  ∀ (s t : State) (i : Instr), exec i s = .next t →
    match i with
    | .send _ _ | .init | .clear => t.cur = s.cur
    | .flush => t.cur = s.cur ∨ (Config.flushCursor = .zero ∧ t.cur = 0)
    | .settextpos row col => t.cur = s.cur ∨ (validCell row col = true ∧ t.cur = textIndex row col)
    | .setpixpos x y | .drawpixel x y => t.cur = s.cur ∨ (validPix x y = true ∧ t.cur = pixIndex x y)
    | .drawline x1 x2 y1 y2 => t.cur = s.cur ∨ ∃ q ∈ plottedPixels x1 x2 y1 y2, t.cur = pixIndex q.1 q.2

/-- R31, R32, R33, R36, R37, R39: `RST_N`, `BUS_READY` and `INIT_DONE` are INIT's alone, and INIT never clears the
last two; the line registers are DRAWLINE's alone, `FI` is FLUSH's alone, and no request that decodes writes
`REFUSED` or the host's words. That the line registers and `FI` keep their values in between is the model's choice
(notes/assumptions/20.md). -/
def Obligations.SpecialRegisterWriters : Prop :=
  ∀ (s t : State) (i : Instr), exec i s = .next t →
    (i ≠ .init → t.rstN = s.rstN ∧ t.busReady = s.busReady ∧ t.initDone = s.initDone) ∧
    (s.busReady = true → t.busReady = true) ∧ (s.initDone = true → t.initDone = true) ∧
    ((∀ x1 x2 y1 y2, i ≠ .drawline x1 x2 y1 y2) → t.line = s.line) ∧
    (i ≠ .flush → t.fi = s.fi) ∧ t.refused = s.refused ∧ t.req = s.req

/-- R27-R30, R116, R152: a request that sends nothing, CLEAR or one out of range, changes no line. -/
def Obligations.SilentRequestsKeepTheLines : Prop :=
  ∀ (s t : State) (i : Instr),
    (match i with
      | .clear => True
      | .settextpos row col => validCell row col = false
      | .setpixpos x y | .drawpixel x y => validPix x y = false
      | .drawline x1 x2 y1 y2 => plottedPixels x1 x2 y1 y2 = []
      | .send _ _ | .init | .flush => False) →
    exec i s = .next t →
    t.sceN = s.sceN ∧ t.dc = s.dc ∧ t.sdr = s.sdr ∧ t.tc = s.tc ∧ t.rstN = s.rstN ∧ t.wave = s.wave ∧
    t.engine = s.engine

/-! ### The machine as a whole -/

/-- R56: no request, whatever the state, ends in an access outside `FB`: executing a request always answers a next
state (its response, a recorded fault, or a held transfer). -/
def Obligations.EveryRequestAnswersANextState : Prop :=
  ∀ (i : Instr) (s : State), ∃ t, exec i s = .next t

/-- R56: no step from a state that meets the invariant accesses `FB` outside 0..503. -/
def Obligations.NoStepLeavesTheFramebuffer : Prop :=
  ∀ (s : State) (a : Nat), s.Inv → step s ≠ .fault (.fbIndex a)

/-- R35: events are appended, never removed, at every step from every state; so are the line writes, the model's own
record (notes/assumptions/19.md). -/
def Obligations.HistoryIsOnlyAppended : Prop :=
  ∀ s t : State, step s = .next t → (∃ es : List Event, t.hist = s.hist ++ es) ∧
    ∃ w : List LineChange, t.wave = s.wave ++ w

/-- R92, R93, R27: the lines move as R92 orders them at every step, from every state that meets the invariant: the line
writes so far are whole envelopes, each with the mode level and the byte of its `BUS` event, in the order of the events,
with `SCE_N` at 1 after the last; and while a Send waits for `TC` they end with `SCE_N` at 0, then `DC`, then `SDR`. The
record of the line writes is the model's own (notes/assumptions/19.md). -/
def Obligations.EveryByteHasItsEnvelope : Prop :=
  ∀ s t : State, s.Inv → step s = .next t →
    (t.phase = .waitTc ∧ t.sceN = false ∧ t.frame = some (.shifting t.dc t.sdr, busBytes t.hist)) ∨
    (t.phase ≠ .waitTc ∧ t.sceN = true ∧ t.frame = some (.between, busBytes t.hist))

/-- R24, R34: `RI` starts at 0; a step either completes a request with a response, and then `RI` goes up by exactly 1,
the phase is IDLE and there is no fault and no refusal, or it responds to none, and then `RI` stays. -/
def Obligations.RequestIndexCountsResponses : Prop :=
  State.reset.ri = 0 ∧
  ∀ s t : State, s.Inv → step s = .next t →
    (t.ri = s.ri + 1 ∧ t.phase = .idle ∧ t.fault = none ∧ t.refused = false ∧
      (∃ r, t.hist.getLast? = some (.rsp r)) ∧ t.hist.countP Event.isRsp = s.hist.countP Event.isRsp + 1) ∨
    (t.ri = s.ri ∧ t.hist.countP Event.isRsp = s.hist.countP Event.isRsp)

/-- R132: pixels are only ever turned on: a bit of `FB` that is set stays set at every step that does not execute
CLEAR, and CLEAR turns off all of them. -/
def Obligations.OnlyClearTurnsPixelsOff : Prop :=
  (∀ s t : State, s.Inv → step s = .next t →
    (s.reqReady → ∀ w later, s.req = w :: later → decode w ≠ .ok .clear) →
    ∀ a b, (s.fbByte a).getLsbD b = true → (t.fbByte a).getLsbD b = true) ∧
  ∀ s t : State, exec .clear s = .next t → ∀ i, i < 504 → t.fbByte i = 0

/-- R153, R154: F_REINIT is recorded only by an INIT with `INIT_DONE = 1`, F_BUS_NOT_READY only by a request other
than INIT and CLEAR, with its opcode, and with `BUS_READY = 0`; both with the request index, and the step that records
one leaves `RI`, `FB`, `CUR` and `HIST` alone. -/
def Obligations.FaultsAreRecordedOnlyOnTheirGrounds : Prop :=
  ∀ (s t : State) (f : FaultRecord), s.Inv → step s = .next t → t.fault = some f →
    (∃ w later i, s.req = w :: later ∧ decode w = .ok i ∧
      match f with
      | .reinit ri => ri = s.ri ∧ s.initDone = true ∧ i = .init
      | .busNotReady ri opc _ _ =>
        ri = s.ri ∧ s.busReady = false ∧ opc = i.opcode ∧ i ≠ .init ∧ i ≠ .clear) ∧
    t.ri = s.ri ∧ t.hist = s.hist ∧ t.cur = s.cur ∧ ∀ a, t.fbByte a = s.fbByte a

/-- R96, R94: how long the serial engine takes changes nothing a request does: if every transfer completes at last,
the block reaches, after some number of steps, the very state that one step with an instantaneous engine gives (but
for the engine's own record). -/
def Obligations.EngineDelaysChangeNoResult : Prop :=
  ∀ s t : State, s.reqReady → s.pending = none → s.engineFair = true →
    step { s with engine := [] } = .next t →
    ∃ (n : Nat) (e : List (Option Nat)), Host.Core.run core n s = .next { t with engine := e }

/-- R172, R183: after INIT, with a responsive engine, every list of requests other than INIT ends well: one step for
each word, `RI` counts them all, and no fault or refusal is recorded. -/
def Obligations.RequestsAfterInitEndWell : Prop :=
  ∀ (is : List Instr) (s : State), s.reqReady → s.busReady = true → s.engine = [] → s.req = is.map encode →
    (∀ i ∈ is, i.wellFormed = true ∧ i ≠ .init) →
    ∃ t, Host.Core.run core is.length s = .next t ∧ t.endsWell (s.ri + is.length) ∧ t.req = []

/-- V1.1 of the spec, R105, R116: CLEAR and then FLUSH sends, as its data bytes, exactly 504 zero bytes. -/
def Obligations.ClearThenFlushSendsZeroes : Prop :=
  ∀ s : State, s.busReady = true → s.promptFor 506 = true → ∃ t u : State,
    exec .clear s = .next t ∧ exec .flush t = .next u ∧
    u.hist = s.hist ++ ([.rsp .done, .bus .cmd (Config.cmdBank 0), .bus .cmd (Config.cmdCol 0)] ++
      List.replicate 504 (.bus .data 0x00) ++ [.rsp .done])

/-! ### The two mappings -/

/-- R114: the pixel mapping and its ranges; it is a bijection
from the 48 x 84 valid pixels onto the 504 x 8 bits of `FB`. -/
def Obligations.PixelMappingIsABijection : Prop :=
  (∀ x y, x ≤ 47 → y ≤ 83 →
    pixBank x = x / 8 ∧ pixBank x ≤ 5 ∧ pixIndex x y = y + x / 8 * 84 ∧ pixIndex x y ≤ 503 ∧
    pixBit x = x % 8 ∧ pixBit x ≤ 7 ∧ pixMask x = BitVec.twoPow 8 (x % 8)) ∧
  (∀ x y x' y', x ≤ 47 → y ≤ 83 → x' ≤ 47 → y' ≤ 83 →
    pixIndex x y = pixIndex x' y' → pixBit x = pixBit x' → x = x' ∧ y = y') ∧
  (∀ i b, i ≤ 503 → b ≤ 7 → ∃ x y, x ≤ 47 ∧ y ≤ 83 ∧ pixIndex x y = i ∧ pixBit x = b)

/-- R118: a text cell starts at the byte of the pixel at its corner, and the largest index is 498. -/
def Obligations.TextCellStartsAtItsCornerPixel : Prop :=
  ∀ row col, row ≤ 5 → col ≤ 13 →
    textPx col = 6 * col ∧ textPx col ≤ 78 ∧ textIndex row col = col * 6 + row * 84 ∧
    textIndex row col = pixIndex (8 * row) (6 * col) ∧
    textIndex row col ≤ 498 ∧ textIndex 5 13 = 498

/-! ### The line-point generator -/

/-- R139 points 1 and 2: the number of points, and both endpoints. -/
def Obligations.LineHasItsEndpoints : Prop :=
  ∀ x1 x2 y1 y2 : Nat,
    (linePoints x1 x2 y1 y2).length = max ((x2 : Int) - x1).natAbs ((y2 : Int) - y1).natAbs + 1 ∧
    (linePoints x1 x2 y1 y2).head? = some ((x1 : Int), (y1 : Int)) ∧
    (linePoints x1 x2 y1 y2).getLast? = some ((x2 : Int), (y2 : Int))

/-- R139 points 3 and 4: consecutive points differ by 1 in the major coordinate and by 0 or 1 in the other, each step
toward the endpoint, and all points are distinct. -/
def Obligations.LineStepsByOneAlongItsMajorAxis : Prop :=
  ∀ x1 x2 y1 y2 : Nat,
    (linePoints x1 x2 y1 y2).IsChain (fun p q =>
      if ((y2 : Int) - y1).natAbs < ((x2 : Int) - x1).natAbs then
        q.1 = p.1 + unitStep ((x2 : Int) - x1) ∧ (q.2 = p.2 ∨ q.2 = p.2 + unitStep ((y2 : Int) - y1))
      else
        q.2 = p.2 + unitStep ((y2 : Int) - y1) ∧ (q.1 = p.1 ∨ q.1 = p.1 + unitStep ((x2 : Int) - x1))) ∧
    (linePoints x1 x2 y1 y2).Nodup

/-- R139 point 5: every point lies in the box of the endpoints. -/
def Obligations.LineStaysInItsBox : Prop :=
  ∀ (x1 x2 y1 y2 : Nat) (p : Int × Int), p ∈ linePoints x1 x2 y1 y2 →
    min (x1 : Int) x2 ≤ p.1 ∧ p.1 ≤ max (x1 : Int) x2 ∧ min (y1 : Int) y2 ≤ p.2 ∧ p.2 ≤ max (y1 : Int) y2

/-- R139 point 7: the points for any directions are those for the directions `(+1, +1)` with each offset multiplied by
the unit steps. -/
def Obligations.LineDirectionsMirror : Prop :=
  ∀ x1 x2 y1 y2 : Nat,
    linePoints x1 x2 y1 y2 =
      (linePoints 0 ((x2 : Int) - x1).natAbs 0 ((y2 : Int) - y1).natAbs).map (fun p =>
        ((x1 : Int) + unitStep ((x2 : Int) - x1) * p.1, (y1 : Int) + unitStep ((y2 : Int) - y1) * p.2))

/-- R140: for u8 operands the error term stays within 507 of 0, so a 10-bit signed register never overflows, and the
points stay in 0..255. -/
def Obligations.LineErrorTermFitsTenBits : Prop :=
  ∀ x1 x2 y1 y2 : Nat, x1 < 256 → x2 < 256 → y1 < 256 → y2 < 256 →
    (-255 ≤ (x2 : Int) - x1 ∧ (x2 : Int) - x1 ≤ 255 ∧ -255 ≤ (y2 : Int) - y1 ∧ (y2 : Int) - y1 ≤ 255) ∧
    ∀ r ∈ lineTrace x1 x2 y1 y2,
      -507 ≤ r.ld ∧ r.ld ≤ 507 ∧ 0 ≤ r.lx ∧ r.lx ≤ 255 ∧ 0 ≤ r.ly ∧ r.ly ≤ 255 ∧
      0 ≤ r.lax ∧ r.lax ≤ 255 ∧ 0 ≤ r.lay ∧ r.lay ≤ 255

/-- R142: exchanging the endpoints can light different pixels: the smallest case. -/
def Obligations.LineIsNotSymmetric : Prop :=
  linePoints 0 2 0 1 = [(0, 0), (1, 1), (2, 1)] ∧ linePoints 2 0 1 0 = [(2, 1), (1, 0), (0, 0)]

/-- R142: when the major delta is odd, or the line is horizontal, vertical or diagonal, exchanging the endpoints gives
the same points in the opposite order. -/
def Obligations.LineIsSymmetricWhenItsMajorDeltaIsOdd : Prop :=
  ∀ x1 x2 y1 y2 : Nat,
    (max ((x2 : Int) - x1).natAbs ((y2 : Int) - y1).natAbs % 2 = 1 ∨ x1 = x2 ∨ y1 = y2 ∨
      ((x2 : Int) - x1).natAbs = ((y2 : Int) - y1).natAbs) →
    linePoints x2 x1 y2 y1 = (linePoints x1 x2 y1 y2).reverse
end

