-- ==== Sys2Proof/Laws/Encoding.lean ====
section
/-! SUPPORT. The request word by its fields: packing, unpacking, and the decoder as a chain of tests on fields. -/

namespace Sys2Proof

/-- Each bit of a word made of five fields (R70). -/
theorem packWord_getLsbD (o a b c d : Byte) (i : Nat) : (packWord o a b c d).getLsbD i =
    if i < 8 then d.getLsbD i else if i < 16 then c.getLsbD (i - 8) else if i < 24 then b.getLsbD (i - 16)
    else if i < 32 then a.getLsbD (i - 24) else o.getLsbD (i - 32) := by
  show (o ++ a ++ b ++ c ++ d : BitVec (8 + 8 + 8 + 8 + 8)).getLsbD i = _
  simp only [BitVec.getLsbD_append]
  split_ifs <;> first | rfl | omega

/-- The fields of a word made of five fields. -/
@[simp] theorem pack_opc (o a b c d : Byte) : (packWord o a b c d).opc = o := by
  ext i hi
  simp only [ReqWord.opc, BitVec.getElem_extractLsb', packWord_getLsbD]
  rw [if_neg (by omega), if_neg (by omega), if_neg (by omega), if_neg (by omega), show 32 + i - 32 = i by omega, BitVec.getLsbD_eq_getElem]

@[simp] theorem pack_a (o a b c d : Byte) : (packWord o a b c d).a = a := by
  ext i hi
  simp only [ReqWord.a, BitVec.getElem_extractLsb', packWord_getLsbD]
  rw [if_neg (by omega), if_neg (by omega), if_neg (by omega), if_pos (by omega), show 24 + i - 24 = i by omega, BitVec.getLsbD_eq_getElem]

@[simp] theorem pack_b (o a b c d : Byte) : (packWord o a b c d).b = b := by
  ext i hi
  simp only [ReqWord.b, BitVec.getElem_extractLsb', packWord_getLsbD]
  rw [if_neg (by omega), if_neg (by omega), if_pos (by omega), show 16 + i - 16 = i by omega, BitVec.getLsbD_eq_getElem]

@[simp] theorem pack_c (o a b c d : Byte) : (packWord o a b c d).c = c := by
  ext i hi
  simp only [ReqWord.c, BitVec.getElem_extractLsb', packWord_getLsbD]
  rw [if_neg (by omega), if_pos (by omega), show 8 + i - 8 = i by omega, BitVec.getLsbD_eq_getElem]

@[simp] theorem pack_d (o a b c d : Byte) : (packWord o a b c d).d = d := by
  ext i hi
  simp only [ReqWord.d, BitVec.getElem_extractLsb', packWord_getLsbD]
  rw [if_pos (by omega), show 0 + i = i by omega, BitVec.getLsbD_eq_getElem]

/-- A mask acts field by field. -/
theorem pack_and (o a b c d o' a' b' c' d' : Byte) : packWord o a b c d &&& packWord o' a' b' c' d' =
    packWord (o &&& o') (a &&& a') (b &&& b') (c &&& c') (d &&& d') := by
  apply BitVec.eq_of_getLsbD_eq
  intro i _
  simp only [BitVec.getLsbD_and, packWord_getLsbD]
  split_ifs <;> rfl

/-- A word is made of its fields. -/
theorem pack_fields (w : ReqWord) : packWord w.opc w.a w.b w.c w.d = w := by
  apply BitVec.eq_of_getLsbD_eq
  intro i hi
  simp only [packWord_getLsbD, ReqWord.opc, ReqWord.a, ReqWord.b, ReqWord.c, ReqWord.d, BitVec.getLsbD_extractLsb']
  split_ifs
  · simp [*]
  · rw [show 8 + (i - 8) = i by omega]; simp; omega
  · rw [show 16 + (i - 16) = i by omega]; simp; omega
  · rw [show 24 + (i - 24) = i by omega]; simp; omega
  · rw [show 32 + (i - 32) = i by omega]; simp; omega

/-- Two words are equal when their fields are. -/
theorem pack_inj {o a b c d o' a' b' c' d' : Byte} : packWord o a b c d = packWord o' a' b' c' d' ↔
    o = o' ∧ a = a' ∧ b = b' ∧ c = c' ∧ d = d' := by
  constructor
  · intro h
    have h1 := congrArg ReqWord.opc h
    have h2 := congrArg ReqWord.a h
    have h3 := congrArg ReqWord.b h
    have h4 := congrArg ReqWord.c h
    have h5 := congrArg ReqWord.d h
    simp only [pack_opc, pack_a, pack_b, pack_c, pack_d] at h1 h2 h3 h4 h5
    exact ⟨h1, h2, h3, h4, h5⟩
  · rintro ⟨rfl, rfl, rfl, rfl, rfl⟩; rfl

/-- The decoder as a chain of tests on the fields of the word. -/
def decodeF (w : ReqWord) : Except IllegalRequest Instr :=
  if w.opc = 1 ∧ w.a &&& 0xFE = 0 ∧ w.c = 0 ∧ w.d = 0 then .ok (.send (kindOfField w.a) w.b)
  else if w.opc = 2 ∧ w.a = 0 ∧ w.b = 0 ∧ w.c = 0 ∧ w.d = 0 then .ok .init
  else if w.opc = 3 ∧ w.a = 0 ∧ w.b = 0 ∧ w.c = 0 ∧ w.d = 0 then .ok .clear
  else if w.opc = 4 ∧ w.a = 0 ∧ w.b = 0 ∧ w.c = 0 ∧ w.d = 0 then .ok .flush
  else if w.opc = 5 ∧ w.c = 0 ∧ w.d = 0 then .ok (.settextpos w.a.toNat w.b.toNat)
  else if w.opc = 6 ∧ w.c = 0 ∧ w.d = 0 then .ok (.setpixpos w.a.toNat w.b.toNat)
  else if w.opc = 7 ∧ w.c = 0 ∧ w.d = 0 then .ok (.drawpixel w.a.toNat w.b.toNat)
  else if w.opc = 8 then .ok (.drawline w.a.toNat w.b.toNat w.c.toNat w.d.toNat)
  else .error (illegalReason w)

/-- A row of R73 field by field. -/
theorem hits_iff (n : String) (w : ReqWord) (o a b c d mo ma mb mc md : Byte) (f) :
    OpRow.hits ⟨n, packWord o a b c d, packWord mo ma mb mc md, f⟩ w = true ↔
    w.opc &&& mo = o ∧ w.a &&& ma = a ∧ w.b &&& mb = b ∧ w.c &&& mc = c ∧ w.d &&& md = d := by
  unfold OpRow.hits
  rw [beq_iff_eq]
  show w &&& packWord mo ma mb mc md = packWord o a b c d ↔ _
  conv_lhs => rw [← pack_fields w]
  rw [pack_and, pack_inj]

/-- The table-driven decoder is the field-by-field one. -/
theorem decode_eq (w : ReqWord) : decode w = decodeF w := by
  have e : opTable = [⟨"SEND", packWord 1 0 0 0 0, packWord 0xFF 0xFE 0 0xFF 0xFF, fun w => .send (kindOfField w.a) w.b⟩,
   ⟨"INIT", packWord 2 0 0 0 0, packWord 0xFF 0xFF 0xFF 0xFF 0xFF, fun _ => .init⟩,
   ⟨"CLEAR", packWord 3 0 0 0 0, packWord 0xFF 0xFF 0xFF 0xFF 0xFF, fun _ => .clear⟩,
   ⟨"FLUSH", packWord 4 0 0 0 0, packWord 0xFF 0xFF 0xFF 0xFF 0xFF, fun _ => .flush⟩,
   ⟨"SETTEXTPOS", packWord 5 0 0 0 0, packWord 0xFF 0 0 0xFF 0xFF, fun w => .settextpos w.a.toNat w.b.toNat⟩,
   ⟨"SETPIXPOS", packWord 6 0 0 0 0, packWord 0xFF 0 0 0xFF 0xFF, fun w => .setpixpos w.a.toNat w.b.toNat⟩,
   ⟨"DRAWPIXEL", packWord 7 0 0 0 0, packWord 0xFF 0 0 0xFF 0xFF, fun w => .drawpixel w.a.toNat w.b.toNat⟩,
   ⟨"DRAWLINE", packWord 8 0 0 0 0, packWord 0xFF 0 0 0 0, fun w => .drawline w.a.toNat w.b.toNat w.c.toNat w.d.toNat⟩] := rfl
  have x (v : Byte) : v &&& 0xFF = v := by simpa using BitVec.and_allOnes (x := v)
  have z (v : Byte) : v &&& 0 = 0 := by simp
  have look : decode w =
      (opTable.find? (·.hits w)).elim (.error (illegalReason w)) (fun r => .ok (r.operands w)) := by
    unfold decode
    cases opTable.find? (·.hits w) <;> rfl
  have cut (r : OpRow) (rs : List OpRow) :
      ((r :: rs).find? (·.hits w)).elim (Except.error (illegalReason w)) (fun r => .ok (r.operands w)) =
      if r.hits w = true then .ok (r.operands w)
      else (rs.find? (·.hits w)).elim (.error (illegalReason w)) (fun r => .ok (r.operands w)) := by
    cases h : r.hits w <;> simp [List.find?, h]
  rw [look, e]
  simp only [cut, hits_iff, x, z, List.find?_nil, true_and, and_true, Option.elim_none, decodeF]

/-- The values of SEND's field A that its mask lets through. -/
theorem kind_mask (v : Byte) : v &&& 0xFE = 0 ↔ v = 0 ∨ v = 1 := by revert v; decide

end Sys2Proof
end

