-- ==== Sys2Proof/Laws/State.lean ====
section
/-! SUPPORT. One lemma per field per named update of State, true by rfl. -/

namespace Sys2Proof.Machine

variable (s : State)

/-! ### State.emit -/

@[simp] theorem State.emit_fb (e : Event) : (s.emit e).fb = s.fb := rfl
@[simp] theorem State.emit_cur (e : Event) : (s.emit e).cur = s.cur := rfl
@[simp] theorem State.emit_sceN (e : Event) : (s.emit e).sceN = s.sceN := rfl
@[simp] theorem State.emit_dc (e : Event) : (s.emit e).dc = s.dc := rfl
@[simp] theorem State.emit_sdr (e : Event) : (s.emit e).sdr = s.sdr := rfl
@[simp] theorem State.emit_tc (e : Event) : (s.emit e).tc = s.tc := rfl
@[simp] theorem State.emit_rstN (e : Event) : (s.emit e).rstN = s.rstN := rfl
@[simp] theorem State.emit_busReady (e : Event) : (s.emit e).busReady = s.busReady := rfl
@[simp] theorem State.emit_initDone (e : Event) : (s.emit e).initDone = s.initDone := rfl
@[simp] theorem State.emit_phase (e : Event) : (s.emit e).phase = s.phase := rfl
@[simp] theorem State.emit_line (e : Event) : (s.emit e).line = s.line := rfl
@[simp] theorem State.emit_fi (e : Event) : (s.emit e).fi = s.fi := rfl
@[simp] theorem State.emit_ri (e : Event) : (s.emit e).ri = s.ri := rfl
@[simp] theorem State.emit_fault (e : Event) : (s.emit e).fault = s.fault := rfl
@[simp] theorem State.emit_refused (e : Event) : (s.emit e).refused = s.refused := rfl
@[simp] theorem State.emit_hist (e : Event) : (s.emit e).hist = s.hist ++ [e] := rfl
@[simp] theorem State.emit_wave (e : Event) : (s.emit e).wave = s.wave := rfl
@[simp] theorem State.emit_req (e : Event) : (s.emit e).req = s.req := rfl
@[simp] theorem State.emit_pending (e : Event) : (s.emit e).pending = s.pending := rfl
@[simp] theorem State.emit_engine (e : Event) : (s.emit e).engine = s.engine := rfl

/-! ### State.respond -/

@[simp] theorem State.respond_fb (r : Response) : (s.respond r).fb = s.fb := rfl
@[simp] theorem State.respond_cur (r : Response) : (s.respond r).cur = s.cur := rfl
@[simp] theorem State.respond_sceN (r : Response) : (s.respond r).sceN = s.sceN := rfl
@[simp] theorem State.respond_dc (r : Response) : (s.respond r).dc = s.dc := rfl
@[simp] theorem State.respond_sdr (r : Response) : (s.respond r).sdr = s.sdr := rfl
@[simp] theorem State.respond_tc (r : Response) : (s.respond r).tc = s.tc := rfl
@[simp] theorem State.respond_rstN (r : Response) : (s.respond r).rstN = s.rstN := rfl
@[simp] theorem State.respond_busReady (r : Response) : (s.respond r).busReady = s.busReady := rfl
@[simp] theorem State.respond_initDone (r : Response) : (s.respond r).initDone = s.initDone := rfl
@[simp] theorem State.respond_phase (r : Response) : (s.respond r).phase = .idle := rfl
@[simp] theorem State.respond_line (r : Response) : (s.respond r).line = s.line := rfl
@[simp] theorem State.respond_fi (r : Response) : (s.respond r).fi = s.fi := rfl
@[simp] theorem State.respond_ri (r : Response) : (s.respond r).ri = s.ri + 1 := rfl
@[simp] theorem State.respond_fault (r : Response) : (s.respond r).fault = s.fault := rfl
@[simp] theorem State.respond_refused (r : Response) : (s.respond r).refused = s.refused := rfl
@[simp] theorem State.respond_hist (r : Response) : (s.respond r).hist = s.hist ++ [.rsp r] := rfl
@[simp] theorem State.respond_wave (r : Response) : (s.respond r).wave = s.wave := rfl
@[simp] theorem State.respond_req (r : Response) : (s.respond r).req = s.req := rfl
@[simp] theorem State.respond_pending (r : Response) : (s.respond r).pending = s.pending := rfl
@[simp] theorem State.respond_engine (r : Response) : (s.respond r).engine = s.engine := rfl

/-! ### State.raiseFault -/

@[simp] theorem State.raiseFault_fb (r : FaultRecord) : (s.raiseFault r).fb = s.fb := rfl
@[simp] theorem State.raiseFault_cur (r : FaultRecord) : (s.raiseFault r).cur = s.cur := rfl
@[simp] theorem State.raiseFault_sceN (r : FaultRecord) : (s.raiseFault r).sceN = s.sceN := rfl
@[simp] theorem State.raiseFault_dc (r : FaultRecord) : (s.raiseFault r).dc = s.dc := rfl
@[simp] theorem State.raiseFault_sdr (r : FaultRecord) : (s.raiseFault r).sdr = s.sdr := rfl
@[simp] theorem State.raiseFault_tc (r : FaultRecord) : (s.raiseFault r).tc = s.tc := rfl
@[simp] theorem State.raiseFault_rstN (r : FaultRecord) : (s.raiseFault r).rstN = s.rstN := rfl
@[simp] theorem State.raiseFault_busReady (r : FaultRecord) : (s.raiseFault r).busReady = s.busReady := rfl
@[simp] theorem State.raiseFault_initDone (r : FaultRecord) : (s.raiseFault r).initDone = s.initDone := rfl
@[simp] theorem State.raiseFault_phase (r : FaultRecord) : (s.raiseFault r).phase = s.phase := rfl
@[simp] theorem State.raiseFault_line (r : FaultRecord) : (s.raiseFault r).line = s.line := rfl
@[simp] theorem State.raiseFault_fi (r : FaultRecord) : (s.raiseFault r).fi = s.fi := rfl
@[simp] theorem State.raiseFault_ri (r : FaultRecord) : (s.raiseFault r).ri = s.ri := rfl
@[simp] theorem State.raiseFault_fault (r : FaultRecord) : (s.raiseFault r).fault = some r := rfl
@[simp] theorem State.raiseFault_refused (r : FaultRecord) : (s.raiseFault r).refused = s.refused := rfl
@[simp] theorem State.raiseFault_hist (r : FaultRecord) : (s.raiseFault r).hist = s.hist := rfl
@[simp] theorem State.raiseFault_wave (r : FaultRecord) : (s.raiseFault r).wave = s.wave := rfl
@[simp] theorem State.raiseFault_req (r : FaultRecord) : (s.raiseFault r).req = s.req := rfl
@[simp] theorem State.raiseFault_pending (r : FaultRecord) : (s.raiseFault r).pending = s.pending := rfl
@[simp] theorem State.raiseFault_engine (r : FaultRecord) : (s.raiseFault r).engine = s.engine := rfl

/-! ### State.refuse -/

@[simp] theorem State.refuse_fb : s.refuse.fb = s.fb := rfl
@[simp] theorem State.refuse_cur : s.refuse.cur = s.cur := rfl
@[simp] theorem State.refuse_sceN : s.refuse.sceN = s.sceN := rfl
@[simp] theorem State.refuse_dc : s.refuse.dc = s.dc := rfl
@[simp] theorem State.refuse_sdr : s.refuse.sdr = s.sdr := rfl
@[simp] theorem State.refuse_tc : s.refuse.tc = s.tc := rfl
@[simp] theorem State.refuse_rstN : s.refuse.rstN = s.rstN := rfl
@[simp] theorem State.refuse_busReady : s.refuse.busReady = s.busReady := rfl
@[simp] theorem State.refuse_initDone : s.refuse.initDone = s.initDone := rfl
@[simp] theorem State.refuse_phase : s.refuse.phase = s.phase := rfl
@[simp] theorem State.refuse_line : s.refuse.line = s.line := rfl
@[simp] theorem State.refuse_fi : s.refuse.fi = s.fi := rfl
@[simp] theorem State.refuse_ri : s.refuse.ri = s.ri := rfl
@[simp] theorem State.refuse_fault : s.refuse.fault = s.fault := rfl
@[simp] theorem State.refuse_refused : s.refuse.refused = true := rfl
@[simp] theorem State.refuse_hist : s.refuse.hist = s.hist := rfl
@[simp] theorem State.refuse_wave : s.refuse.wave = s.wave := rfl
@[simp] theorem State.refuse_req : s.refuse.req = s.req := rfl
@[simp] theorem State.refuse_pending : s.refuse.pending = s.pending := rfl
@[simp] theorem State.refuse_engine : s.refuse.engine = s.engine := rfl

/-! ### State.begin -/

@[simp] theorem State.begin_fb : s.begin.fb = s.fb := rfl
@[simp] theorem State.begin_cur : s.begin.cur = s.cur := rfl
@[simp] theorem State.begin_sceN : s.begin.sceN = s.sceN := rfl
@[simp] theorem State.begin_dc : s.begin.dc = s.dc := rfl
@[simp] theorem State.begin_sdr : s.begin.sdr = s.sdr := rfl
@[simp] theorem State.begin_tc : s.begin.tc = s.tc := rfl
@[simp] theorem State.begin_rstN : s.begin.rstN = s.rstN := rfl
@[simp] theorem State.begin_busReady : s.begin.busReady = s.busReady := rfl
@[simp] theorem State.begin_initDone : s.begin.initDone = s.initDone := rfl
@[simp] theorem State.begin_phase : s.begin.phase = .busy := rfl
@[simp] theorem State.begin_line : s.begin.line = s.line := rfl
@[simp] theorem State.begin_fi : s.begin.fi = s.fi := rfl
@[simp] theorem State.begin_ri : s.begin.ri = s.ri := rfl
@[simp] theorem State.begin_fault : s.begin.fault = s.fault := rfl
@[simp] theorem State.begin_refused : s.begin.refused = s.refused := rfl
@[simp] theorem State.begin_hist : s.begin.hist = s.hist := rfl
@[simp] theorem State.begin_wave : s.begin.wave = s.wave := rfl
@[simp] theorem State.begin_req : s.begin.req = s.req := rfl
@[simp] theorem State.begin_pending : s.begin.pending = none := rfl
@[simp] theorem State.begin_engine : s.begin.engine = s.engine := rfl

/-! ### State.driveSceN -/

@[simp] theorem State.driveSceN_fb (level : Bool) : (s.driveSceN level).fb = s.fb := rfl
@[simp] theorem State.driveSceN_cur (level : Bool) : (s.driveSceN level).cur = s.cur := rfl
@[simp] theorem State.driveSceN_sceN (level : Bool) : (s.driveSceN level).sceN = level := rfl
@[simp] theorem State.driveSceN_dc (level : Bool) : (s.driveSceN level).dc = s.dc := rfl
@[simp] theorem State.driveSceN_sdr (level : Bool) : (s.driveSceN level).sdr = s.sdr := rfl
@[simp] theorem State.driveSceN_tc (level : Bool) : (s.driveSceN level).tc = s.tc := rfl
@[simp] theorem State.driveSceN_rstN (level : Bool) : (s.driveSceN level).rstN = s.rstN := rfl
@[simp] theorem State.driveSceN_busReady (level : Bool) : (s.driveSceN level).busReady = s.busReady := rfl
@[simp] theorem State.driveSceN_initDone (level : Bool) : (s.driveSceN level).initDone = s.initDone := rfl
@[simp] theorem State.driveSceN_phase (level : Bool) : (s.driveSceN level).phase = s.phase := rfl
@[simp] theorem State.driveSceN_line (level : Bool) : (s.driveSceN level).line = s.line := rfl
@[simp] theorem State.driveSceN_fi (level : Bool) : (s.driveSceN level).fi = s.fi := rfl
@[simp] theorem State.driveSceN_ri (level : Bool) : (s.driveSceN level).ri = s.ri := rfl
@[simp] theorem State.driveSceN_fault (level : Bool) : (s.driveSceN level).fault = s.fault := rfl
@[simp] theorem State.driveSceN_refused (level : Bool) : (s.driveSceN level).refused = s.refused := rfl
@[simp] theorem State.driveSceN_hist (level : Bool) : (s.driveSceN level).hist = s.hist := rfl
@[simp] theorem State.driveSceN_wave (level : Bool) : (s.driveSceN level).wave = s.wave ++ [.sceN level] := rfl
@[simp] theorem State.driveSceN_req (level : Bool) : (s.driveSceN level).req = s.req := rfl
@[simp] theorem State.driveSceN_pending (level : Bool) : (s.driveSceN level).pending = s.pending := rfl
@[simp] theorem State.driveSceN_engine (level : Bool) : (s.driveSceN level).engine = s.engine := rfl

/-! ### State.driveDc -/

@[simp] theorem State.driveDc_fb (level : Bool) : (s.driveDc level).fb = s.fb := rfl
@[simp] theorem State.driveDc_cur (level : Bool) : (s.driveDc level).cur = s.cur := rfl
@[simp] theorem State.driveDc_sceN (level : Bool) : (s.driveDc level).sceN = s.sceN := rfl
@[simp] theorem State.driveDc_dc (level : Bool) : (s.driveDc level).dc = level := rfl
@[simp] theorem State.driveDc_sdr (level : Bool) : (s.driveDc level).sdr = s.sdr := rfl
@[simp] theorem State.driveDc_tc (level : Bool) : (s.driveDc level).tc = s.tc := rfl
@[simp] theorem State.driveDc_rstN (level : Bool) : (s.driveDc level).rstN = s.rstN := rfl
@[simp] theorem State.driveDc_busReady (level : Bool) : (s.driveDc level).busReady = s.busReady := rfl
@[simp] theorem State.driveDc_initDone (level : Bool) : (s.driveDc level).initDone = s.initDone := rfl
@[simp] theorem State.driveDc_phase (level : Bool) : (s.driveDc level).phase = s.phase := rfl
@[simp] theorem State.driveDc_line (level : Bool) : (s.driveDc level).line = s.line := rfl
@[simp] theorem State.driveDc_fi (level : Bool) : (s.driveDc level).fi = s.fi := rfl
@[simp] theorem State.driveDc_ri (level : Bool) : (s.driveDc level).ri = s.ri := rfl
@[simp] theorem State.driveDc_fault (level : Bool) : (s.driveDc level).fault = s.fault := rfl
@[simp] theorem State.driveDc_refused (level : Bool) : (s.driveDc level).refused = s.refused := rfl
@[simp] theorem State.driveDc_hist (level : Bool) : (s.driveDc level).hist = s.hist := rfl
@[simp] theorem State.driveDc_wave (level : Bool) : (s.driveDc level).wave = s.wave ++ [.dc level] := rfl
@[simp] theorem State.driveDc_req (level : Bool) : (s.driveDc level).req = s.req := rfl
@[simp] theorem State.driveDc_pending (level : Bool) : (s.driveDc level).pending = s.pending := rfl
@[simp] theorem State.driveDc_engine (level : Bool) : (s.driveDc level).engine = s.engine := rfl

/-! ### State.writeSdr -/

@[simp] theorem State.writeSdr_fb (b : Byte) : (s.writeSdr b).fb = s.fb := rfl
@[simp] theorem State.writeSdr_cur (b : Byte) : (s.writeSdr b).cur = s.cur := rfl
@[simp] theorem State.writeSdr_sceN (b : Byte) : (s.writeSdr b).sceN = s.sceN := rfl
@[simp] theorem State.writeSdr_dc (b : Byte) : (s.writeSdr b).dc = s.dc := rfl
@[simp] theorem State.writeSdr_sdr (b : Byte) : (s.writeSdr b).sdr = b := rfl
@[simp] theorem State.writeSdr_tc (b : Byte) : (s.writeSdr b).tc = false := rfl
@[simp] theorem State.writeSdr_rstN (b : Byte) : (s.writeSdr b).rstN = s.rstN := rfl
@[simp] theorem State.writeSdr_busReady (b : Byte) : (s.writeSdr b).busReady = s.busReady := rfl
@[simp] theorem State.writeSdr_initDone (b : Byte) : (s.writeSdr b).initDone = s.initDone := rfl
@[simp] theorem State.writeSdr_phase (b : Byte) : (s.writeSdr b).phase = s.phase := rfl
@[simp] theorem State.writeSdr_line (b : Byte) : (s.writeSdr b).line = s.line := rfl
@[simp] theorem State.writeSdr_fi (b : Byte) : (s.writeSdr b).fi = s.fi := rfl
@[simp] theorem State.writeSdr_ri (b : Byte) : (s.writeSdr b).ri = s.ri := rfl
@[simp] theorem State.writeSdr_fault (b : Byte) : (s.writeSdr b).fault = s.fault := rfl
@[simp] theorem State.writeSdr_refused (b : Byte) : (s.writeSdr b).refused = s.refused := rfl
@[simp] theorem State.writeSdr_hist (b : Byte) : (s.writeSdr b).hist = s.hist := rfl
@[simp] theorem State.writeSdr_wave (b : Byte) : (s.writeSdr b).wave = s.wave ++ [.sdr b] := rfl
@[simp] theorem State.writeSdr_req (b : Byte) : (s.writeSdr b).req = s.req := rfl
@[simp] theorem State.writeSdr_pending (b : Byte) : (s.writeSdr b).pending = s.pending := rfl
@[simp] theorem State.writeSdr_engine (b : Byte) : (s.writeSdr b).engine = s.engine := rfl

/-! ### State.transferDone -/

@[simp] theorem State.transferDone_fb : s.transferDone.fb = s.fb := rfl
@[simp] theorem State.transferDone_cur : s.transferDone.cur = s.cur := rfl
@[simp] theorem State.transferDone_sceN : s.transferDone.sceN = s.sceN := rfl
@[simp] theorem State.transferDone_dc : s.transferDone.dc = s.dc := rfl
@[simp] theorem State.transferDone_sdr : s.transferDone.sdr = s.sdr := rfl
@[simp] theorem State.transferDone_tc : s.transferDone.tc = true := rfl
@[simp] theorem State.transferDone_rstN : s.transferDone.rstN = s.rstN := rfl
@[simp] theorem State.transferDone_busReady : s.transferDone.busReady = s.busReady := rfl
@[simp] theorem State.transferDone_initDone : s.transferDone.initDone = s.initDone := rfl
@[simp] theorem State.transferDone_phase : s.transferDone.phase = s.phase := rfl
@[simp] theorem State.transferDone_line : s.transferDone.line = s.line := rfl
@[simp] theorem State.transferDone_fi : s.transferDone.fi = s.fi := rfl
@[simp] theorem State.transferDone_ri : s.transferDone.ri = s.ri := rfl
@[simp] theorem State.transferDone_fault : s.transferDone.fault = s.fault := rfl
@[simp] theorem State.transferDone_refused : s.transferDone.refused = s.refused := rfl
@[simp] theorem State.transferDone_hist : s.transferDone.hist = s.hist := rfl
@[simp] theorem State.transferDone_wave : s.transferDone.wave = s.wave ++ [.tcDone] := rfl
@[simp] theorem State.transferDone_req : s.transferDone.req = s.req := rfl
@[simp] theorem State.transferDone_pending : s.transferDone.pending = s.pending := rfl
@[simp] theorem State.transferDone_engine : s.transferDone.engine = s.engine := rfl

/-! ### State.driveRstN -/

@[simp] theorem State.driveRstN_fb (level : Bool) : (s.driveRstN level).fb = s.fb := rfl
@[simp] theorem State.driveRstN_cur (level : Bool) : (s.driveRstN level).cur = s.cur := rfl
@[simp] theorem State.driveRstN_sceN (level : Bool) : (s.driveRstN level).sceN = s.sceN := rfl
@[simp] theorem State.driveRstN_dc (level : Bool) : (s.driveRstN level).dc = s.dc := rfl
@[simp] theorem State.driveRstN_sdr (level : Bool) : (s.driveRstN level).sdr = s.sdr := rfl
@[simp] theorem State.driveRstN_tc (level : Bool) : (s.driveRstN level).tc = s.tc := rfl
@[simp] theorem State.driveRstN_rstN (level : Bool) : (s.driveRstN level).rstN = level := rfl
@[simp] theorem State.driveRstN_busReady (level : Bool) : (s.driveRstN level).busReady = s.busReady := rfl
@[simp] theorem State.driveRstN_initDone (level : Bool) : (s.driveRstN level).initDone = s.initDone := rfl
@[simp] theorem State.driveRstN_phase (level : Bool) : (s.driveRstN level).phase = s.phase := rfl
@[simp] theorem State.driveRstN_line (level : Bool) : (s.driveRstN level).line = s.line := rfl
@[simp] theorem State.driveRstN_fi (level : Bool) : (s.driveRstN level).fi = s.fi := rfl
@[simp] theorem State.driveRstN_ri (level : Bool) : (s.driveRstN level).ri = s.ri := rfl
@[simp] theorem State.driveRstN_fault (level : Bool) : (s.driveRstN level).fault = s.fault := rfl
@[simp] theorem State.driveRstN_refused (level : Bool) : (s.driveRstN level).refused = s.refused := rfl
@[simp] theorem State.driveRstN_hist (level : Bool) : (s.driveRstN level).hist = s.hist := rfl
@[simp] theorem State.driveRstN_wave (level : Bool) : (s.driveRstN level).wave = s.wave ++ [.rstN level] := rfl
@[simp] theorem State.driveRstN_req (level : Bool) : (s.driveRstN level).req = s.req := rfl
@[simp] theorem State.driveRstN_pending (level : Bool) : (s.driveRstN level).pending = s.pending := rfl
@[simp] theorem State.driveRstN_engine (level : Bool) : (s.driveRstN level).engine = s.engine := rfl

/-! ### State.sendStart -/

@[simp] theorem State.sendStart_fb (k : Kind) (b : Byte) : (s.sendStart k b).fb = s.fb := rfl
@[simp] theorem State.sendStart_cur (k : Kind) (b : Byte) : (s.sendStart k b).cur = s.cur := rfl
@[simp] theorem State.sendStart_sceN (k : Kind) (b : Byte) : (s.sendStart k b).sceN = false := rfl
@[simp] theorem State.sendStart_dc (k : Kind) (b : Byte) : (s.sendStart k b).dc = modeLevel k := rfl
@[simp] theorem State.sendStart_sdr (k : Kind) (b : Byte) : (s.sendStart k b).sdr = b := rfl
@[simp] theorem State.sendStart_tc (k : Kind) (b : Byte) : (s.sendStart k b).tc = false := rfl
@[simp] theorem State.sendStart_rstN (k : Kind) (b : Byte) : (s.sendStart k b).rstN = s.rstN := rfl
@[simp] theorem State.sendStart_busReady (k : Kind) (b : Byte) : (s.sendStart k b).busReady = s.busReady := rfl
@[simp] theorem State.sendStart_initDone (k : Kind) (b : Byte) : (s.sendStart k b).initDone = s.initDone := rfl
@[simp] theorem State.sendStart_phase (k : Kind) (b : Byte) : (s.sendStart k b).phase = .waitTc := rfl
@[simp] theorem State.sendStart_line (k : Kind) (b : Byte) : (s.sendStart k b).line = s.line := rfl
@[simp] theorem State.sendStart_fi (k : Kind) (b : Byte) : (s.sendStart k b).fi = s.fi := rfl
@[simp] theorem State.sendStart_ri (k : Kind) (b : Byte) : (s.sendStart k b).ri = s.ri := rfl
@[simp] theorem State.sendStart_fault (k : Kind) (b : Byte) : (s.sendStart k b).fault = s.fault := rfl
@[simp] theorem State.sendStart_refused (k : Kind) (b : Byte) : (s.sendStart k b).refused = s.refused := rfl
@[simp] theorem State.sendStart_hist (k : Kind) (b : Byte) : (s.sendStart k b).hist = s.hist := rfl
@[simp] theorem State.sendStart_wave (k : Kind) (b : Byte) : (s.sendStart k b).wave =
    s.wave ++ [.sceN false, .dc (modeLevel k), .sdr b] := by
  simp [State.sendStart, State.driveSceN, State.driveDc, State.writeSdr]
@[simp] theorem State.sendStart_req (k : Kind) (b : Byte) : (s.sendStart k b).req = s.req := rfl
@[simp] theorem State.sendStart_pending (k : Kind) (b : Byte) : (s.sendStart k b).pending = s.pending := rfl
@[simp] theorem State.sendStart_engine (k : Kind) (b : Byte) : (s.sendStart k b).engine = s.engine := rfl

/-! ### State.sendEnd -/

@[simp] theorem State.sendEnd_fb (k : Kind) (b : Byte) : (s.sendEnd k b).fb = s.fb := rfl
@[simp] theorem State.sendEnd_cur (k : Kind) (b : Byte) : (s.sendEnd k b).cur = s.cur := rfl
@[simp] theorem State.sendEnd_sceN (k : Kind) (b : Byte) : (s.sendEnd k b).sceN = true := rfl
@[simp] theorem State.sendEnd_dc (k : Kind) (b : Byte) : (s.sendEnd k b).dc = s.dc := rfl
@[simp] theorem State.sendEnd_sdr (k : Kind) (b : Byte) : (s.sendEnd k b).sdr = s.sdr := rfl
@[simp] theorem State.sendEnd_tc (k : Kind) (b : Byte) : (s.sendEnd k b).tc = s.tc := rfl
@[simp] theorem State.sendEnd_rstN (k : Kind) (b : Byte) : (s.sendEnd k b).rstN = s.rstN := rfl
@[simp] theorem State.sendEnd_busReady (k : Kind) (b : Byte) : (s.sendEnd k b).busReady = s.busReady := rfl
@[simp] theorem State.sendEnd_initDone (k : Kind) (b : Byte) : (s.sendEnd k b).initDone = s.initDone := rfl
@[simp] theorem State.sendEnd_phase (k : Kind) (b : Byte) : (s.sendEnd k b).phase = .busy := rfl
@[simp] theorem State.sendEnd_line (k : Kind) (b : Byte) : (s.sendEnd k b).line = s.line := rfl
@[simp] theorem State.sendEnd_fi (k : Kind) (b : Byte) : (s.sendEnd k b).fi = s.fi := rfl
@[simp] theorem State.sendEnd_ri (k : Kind) (b : Byte) : (s.sendEnd k b).ri = s.ri := rfl
@[simp] theorem State.sendEnd_fault (k : Kind) (b : Byte) : (s.sendEnd k b).fault = s.fault := rfl
@[simp] theorem State.sendEnd_refused (k : Kind) (b : Byte) : (s.sendEnd k b).refused = s.refused := rfl
@[simp] theorem State.sendEnd_hist (k : Kind) (b : Byte) : (s.sendEnd k b).hist = s.hist ++ [.bus k b] := rfl
@[simp] theorem State.sendEnd_wave (k : Kind) (b : Byte) : (s.sendEnd k b).wave = s.wave ++ [.sceN true] := rfl
@[simp] theorem State.sendEnd_req (k : Kind) (b : Byte) : (s.sendEnd k b).req = s.req := rfl
@[simp] theorem State.sendEnd_pending (k : Kind) (b : Byte) : (s.sendEnd k b).pending = s.pending := rfl
@[simp] theorem State.sendEnd_engine (k : Kind) (b : Byte) : (s.sendEnd k b).engine = s.engine := rfl

/-! ### State.hold -/

@[simp] theorem State.hold_fb (opc : Byte) (k : Kind) (b : Byte) (rest : List Op) : (s.hold opc k b rest).fb = s.fb := rfl
@[simp] theorem State.hold_cur (opc : Byte) (k : Kind) (b : Byte) (rest : List Op) : (s.hold opc k b rest).cur = s.cur := rfl
@[simp] theorem State.hold_sceN (opc : Byte) (k : Kind) (b : Byte) (rest : List Op) : (s.hold opc k b rest).sceN = s.sceN := rfl
@[simp] theorem State.hold_dc (opc : Byte) (k : Kind) (b : Byte) (rest : List Op) : (s.hold opc k b rest).dc = s.dc := rfl
@[simp] theorem State.hold_sdr (opc : Byte) (k : Kind) (b : Byte) (rest : List Op) : (s.hold opc k b rest).sdr = s.sdr := rfl
@[simp] theorem State.hold_tc (opc : Byte) (k : Kind) (b : Byte) (rest : List Op) : (s.hold opc k b rest).tc = s.tc := rfl
@[simp] theorem State.hold_rstN (opc : Byte) (k : Kind) (b : Byte) (rest : List Op) : (s.hold opc k b rest).rstN = s.rstN := rfl
@[simp] theorem State.hold_busReady (opc : Byte) (k : Kind) (b : Byte) (rest : List Op) : (s.hold opc k b rest).busReady = s.busReady := rfl
@[simp] theorem State.hold_initDone (opc : Byte) (k : Kind) (b : Byte) (rest : List Op) : (s.hold opc k b rest).initDone = s.initDone := rfl
@[simp] theorem State.hold_phase (opc : Byte) (k : Kind) (b : Byte) (rest : List Op) : (s.hold opc k b rest).phase = s.phase := rfl
@[simp] theorem State.hold_line (opc : Byte) (k : Kind) (b : Byte) (rest : List Op) : (s.hold opc k b rest).line = s.line := rfl
@[simp] theorem State.hold_fi (opc : Byte) (k : Kind) (b : Byte) (rest : List Op) : (s.hold opc k b rest).fi = s.fi := rfl
@[simp] theorem State.hold_ri (opc : Byte) (k : Kind) (b : Byte) (rest : List Op) : (s.hold opc k b rest).ri = s.ri := rfl
@[simp] theorem State.hold_fault (opc : Byte) (k : Kind) (b : Byte) (rest : List Op) : (s.hold opc k b rest).fault = s.fault := rfl
@[simp] theorem State.hold_refused (opc : Byte) (k : Kind) (b : Byte) (rest : List Op) : (s.hold opc k b rest).refused = s.refused := rfl
@[simp] theorem State.hold_hist (opc : Byte) (k : Kind) (b : Byte) (rest : List Op) : (s.hold opc k b rest).hist = s.hist := rfl
@[simp] theorem State.hold_wave (opc : Byte) (k : Kind) (b : Byte) (rest : List Op) : (s.hold opc k b rest).wave = s.wave := rfl
@[simp] theorem State.hold_req (opc : Byte) (k : Kind) (b : Byte) (rest : List Op) : (s.hold opc k b rest).req = s.req := rfl
@[simp] theorem State.hold_pending (opc : Byte) (k : Kind) (b : Byte) (rest : List Op) : (s.hold opc k b rest).pending = some ⟨opc, k, b, rest⟩ := rfl
@[simp] theorem State.hold_engine (opc : Byte) (k : Kind) (b : Byte) (rest : List Op) : (s.hold opc k b rest).engine = s.engine := rfl

/-! ### State.present -/

@[simp] theorem State.present_fb (w : ReqWord) : (s.present w).fb = s.fb := rfl
@[simp] theorem State.present_cur (w : ReqWord) : (s.present w).cur = s.cur := rfl
@[simp] theorem State.present_sceN (w : ReqWord) : (s.present w).sceN = s.sceN := rfl
@[simp] theorem State.present_dc (w : ReqWord) : (s.present w).dc = s.dc := rfl
@[simp] theorem State.present_sdr (w : ReqWord) : (s.present w).sdr = s.sdr := rfl
@[simp] theorem State.present_tc (w : ReqWord) : (s.present w).tc = s.tc := rfl
@[simp] theorem State.present_rstN (w : ReqWord) : (s.present w).rstN = s.rstN := rfl
@[simp] theorem State.present_busReady (w : ReqWord) : (s.present w).busReady = s.busReady := rfl
@[simp] theorem State.present_initDone (w : ReqWord) : (s.present w).initDone = s.initDone := rfl
@[simp] theorem State.present_phase (w : ReqWord) : (s.present w).phase = s.phase := rfl
@[simp] theorem State.present_line (w : ReqWord) : (s.present w).line = s.line := rfl
@[simp] theorem State.present_fi (w : ReqWord) : (s.present w).fi = s.fi := rfl
@[simp] theorem State.present_ri (w : ReqWord) : (s.present w).ri = s.ri := rfl
@[simp] theorem State.present_fault (w : ReqWord) : (s.present w).fault = s.fault := rfl
@[simp] theorem State.present_refused (w : ReqWord) : (s.present w).refused = s.refused := rfl
@[simp] theorem State.present_hist (w : ReqWord) : (s.present w).hist = s.hist := rfl
@[simp] theorem State.present_wave (w : ReqWord) : (s.present w).wave = s.wave := rfl
@[simp] theorem State.present_req (w : ReqWord) : (s.present w).req = w :: s.req := rfl
@[simp] theorem State.present_pending (w : ReqWord) : (s.present w).pending = s.pending := rfl
@[simp] theorem State.present_engine (w : ReqWord) : (s.present w).engine = s.engine := rfl

end Sys2Proof.Machine
end

