-- ==== Sys2Proof/Laws/Memory.lean ====
section
/-! SUPPORT. The framebuffer's laws: a read after a write, the canonical form, and the byte accesses of R55. -/

namespace Sys2Proof.Machine

@[simp] theorem Memory.get?_nil (i : Nat) : Memory.get? [] i = none := rfl

@[simp] theorem Memory.get?_set_same (m : Memory) (i : Nat) (v : Byte) : (m.set i v).get? i = some v := by
  induction m with
  | nil => simp [Memory.set, Memory.get?]
  | cons c m ih =>
    obtain ⟨j, w⟩ := c
    simp only [Memory.set]
    split
    · simp [Memory.get?]
    · split
      · simp [Memory.get?]
      · rename_i h
        simp [Memory.get?, h, ih]

theorem Memory.get?_set_other (m : Memory) {i a : Nat} (v : Byte) (h : a ≠ i) : (m.set i v).get? a = m.get? a := by
  induction m with
  | nil => simp [Memory.set, Memory.get?, h, Memory.unlisted]
  | cons c m ih =>
    obtain ⟨j, w⟩ := c
    simp only [Memory.set]
    split
    · simp [Memory.get?, h]
    · split
      · rename_i hij
        subst hij
        simp [Memory.get?, h]
      · simp [Memory.get?, ih]

theorem Memory.mem_set {m : Memory} {i : Nat} {v : Byte} {p : Host.Cell} (h : p ∈ m.set i v) :
    p = (i, v) ∨ p ∈ m := by
  induction m with
  | nil => simpa [Memory.set] using h
  | cons c m ih =>
    obtain ⟨j, w⟩ := c
    simp only [Memory.set] at h
    split at h
    · simpa using h
    · split at h
      · simp only [List.mem_cons] at h ⊢
        tauto
      · simp only [List.mem_cons] at h ⊢
        tauto

theorem Memory.wf_iff (m : Memory) :
    m.wf = true ↔ m.Pairwise (fun p q => p.1 < q.1) ∧ ∀ p ∈ m, p.1 < Config.nFb := by
  simp [Memory.wf, List.all_eq_true]

@[simp] theorem Memory.wf_nil : Memory.wf [] = true := rfl

theorem Memory.wf_set {m : Memory} {i : Nat} {v : Byte} (h : m.wf = true) (hi : i < Config.nFb) :
    (m.set i v).wf = true := by
  rw [Memory.wf_iff] at h ⊢
  obtain ⟨hp, hr⟩ := h
  refine ⟨?_, fun p hm => ?_⟩
  · induction m with
    | nil => simp [Memory.set]
    | cons c m ih =>
      obtain ⟨j, w⟩ := c
      have hp' := List.pairwise_cons.mp hp
      simp only [Memory.set]
      split
      · rename_i hij
        refine List.pairwise_cons.mpr ⟨fun q hq => ?_, hp⟩
        rcases List.mem_cons.mp hq with rfl | hq
        · exact hij
        · exact lt_trans hij (hp'.1 q hq)
      · split
        · rename_i hij
          subst hij
          exact List.pairwise_cons.mpr ⟨hp'.1, hp'.2⟩
        · refine List.pairwise_cons.mpr ⟨fun q hq => ?_, ih hp'.2 (fun p hm => hr p (List.mem_cons_of_mem _ hm))⟩
          rcases Memory.mem_set hq with rfl | hq
          · show j < i
            omega
          · exact hp'.1 q hq
  · rcases Memory.mem_set hm with rfl | hm
    · exact hi
    · exact hr p hm

theorem State.memRead_of_lt (s : State) {i : Nat} (h : i < Config.nFb) : s.memRead i = some (s.fbByte i) := by
  simp [State.memRead, h]

theorem State.memWrite_of_lt (s : State) {i : Nat} (v : Byte) (h : i < Config.nFb) :
    s.memWrite i v = some { s with fb := s.fb.set i v } := by
  simp [State.memWrite, h]

/-- A byte's value depends on the listed cells alone. -/
theorem State.fbByte_congr {s t : State} (h : t.fb = s.fb) (a : Nat) : t.fbByte a = s.fbByte a := by
  simp [State.fbByte, h]

@[simp] theorem State.fbByte_set_same (s : State) (i : Nat) (v : Byte) :
    State.fbByte { s with fb := s.fb.set i v } i = v := by
  simp [State.fbByte]

theorem State.fbByte_set_other (s : State) {i a : Nat} (v : Byte) (h : a ≠ i) :
    State.fbByte { s with fb := s.fb.set i v } a = s.fbByte a := by
  simp [State.fbByte, Memory.get?_set_other _ _ h]

theorem State.fbByte_set (s : State) (i a : Nat) (v : Byte) :
    State.fbByte { s with fb := s.fb.set i v } a = if a = i then v else s.fbByte a := by
  by_cases h : a = i
  · subst h
    simp
  · simp [State.fbByte_set_other s v h, h]

end Sys2Proof.Machine
end

