-- ==== Sys2Proof/Laws/Framer.lean ====
section
/-! SUPPORT. What the serial engine, one Send and one action can do, said once. -/

namespace Sys2Proof.Machine

/-- The engine's step completes the transfer that the block waits for, or touches its own record only. -/
theorem engineStep_cases (s : State) :
    (∃ e, engineStep s = { s with engine := e }) ∨
    (s.phase = .waitTc ∧ s.tc = false ∧
      ∃ e, engineStep s = { s with tc := true, engine := e, wave := s.wave ++ [.tcDone] }) := by
  unfold engineStep
  split
  · rename_i h
    unfold engineAnswer
    split
    · exact .inr ⟨h.1, h.2, _, rfl⟩
    · exact .inr ⟨h.1, h.2, _, rfl⟩
    · exact .inl ⟨_, rfl⟩
    · exact .inl ⟨s.engine, rfl⟩
  · exact .inl ⟨s.engine, rfl⟩

/-- A poll of `TC` ends the Send with `TC = 1`, or leaves it waiting with `TC = 0`. -/
theorem awaitTc_cases (k : Kind) (b : Byte) (s : State) :
    (∃ e w, awaitTc k b s = .ok { s with
      phase := .busy, sceN := true, tc := true, engine := e, wave := s.wave ++ (w ++ [.sceN true]),
      hist := s.hist ++ [.bus k b] } ∧ (s.phase = .waitTc → s.tc = false → w = [.tcDone])) ∨
    (∃ e, awaitTc k b s = .held k b { s with tc := false, engine := e }) := by
  unfold awaitTc
  rcases engineStep_cases s with ⟨e, h⟩ | ⟨_, _, e, h⟩ <;> rw [h]
  · rcases Bool.eq_false_or_eq_true s.tc with ht | ht
    · refine .inl ⟨e, [], ?_, fun _ hf => absurd (ht.symm.trans hf) (by simp)⟩
      simp [ht, State.sendEnd, State.driveSceN, State.emit]
    · refine .inr ⟨e, ?_⟩
      simp [ht]
  · refine .inl ⟨e, [.tcDone], ?_, fun _ _ => rfl⟩
    simp [State.sendEnd, State.driveSceN, State.emit]

/-- The same for a block that waits: the engine's `TC <- 1` comes before `SCE_N <- 1` (R92). -/
theorem awaitTc_waiting (k : Kind) (b : Byte) {s : State} (hp : s.phase = .waitTc) (ht : s.tc = false) :
    (∃ e, awaitTc k b s = .ok { s with
      phase := .busy, sceN := true, tc := true, engine := e, wave := s.wave ++ [.tcDone, .sceN true],
      hist := s.hist ++ [.bus k b] }) ∨
    (∃ e, awaitTc k b s = .held k b { s with tc := false, engine := e }) := by
  rcases awaitTc_cases k b s with ⟨e, w, h, hw⟩ | h
  · obtain rfl := hw hp ht
    exact .inl ⟨e, h⟩
  · exact .inr h

/-- The three ends of one Send (R90), with its line writes in the order of R92. -/
theorem sendByte_cases (opc : Byte) (k : Kind) (b : Byte) (s : State) :
    (s.busReady = false ∧ sendByte opc k b s = .raised (s.raiseFault (.busNotReady s.ri opc k b))) ∨
    (s.busReady = true ∧ ∃ e, sendByte opc k b s = .ok { s with
      sceN := true, dc := modeLevel k, sdr := b, tc := true, phase := .busy, engine := e,
      wave := s.wave ++ envelope k b, hist := s.hist ++ [.bus k b] }) ∨
    (s.busReady = true ∧ ∃ e, sendByte opc k b s = .held k b { s with
      sceN := false, dc := modeLevel k, sdr := b, tc := false, phase := .waitTc, engine := e,
      wave := s.wave ++ [.sceN false, .dc (modeLevel k), .sdr b] }) := by
  unfold sendByte
  rcases Bool.eq_false_or_eq_true s.busReady with hb | hb
  · rw [if_pos hb]
    rcases awaitTc_waiting k b (s := s.sendStart k b) rfl rfl with ⟨e, h⟩ | ⟨e, h⟩ <;> rw [h]
    · refine .inr (.inl ⟨hb, e, ?_⟩)
      simp only [State.sendStart_wave, List.append_assoc]
      rfl
    · refine .inr (.inr ⟨hb, e, ?_⟩)
      rw [← State.sendStart_wave]
      rfl
  · exact .inl ⟨hb, by simp [hb]⟩

theorem State.promptFor_zero (s : State) : s.promptFor 0 = true := by simp [State.promptFor]

/-- An engine that completes the next `n + 1` transfers at once completes the next one, and then the next `n`. -/
theorem State.promptFor_succ {s : State} {n : Nat} (h : s.promptFor (n + 1) = true) :
    (s.engine = [] ∨ ∃ later, s.engine = some 0 :: later) ∧
    ((s.engine.drop 1).take n).all (· == some 0) = true := by
  unfold State.promptFor at h
  cases he : s.engine with
  | nil => simp
  | cons a later =>
    rw [he] at h
    simp only [List.take_succ_cons, List.all_cons, Bool.and_eq_true, beq_iff_eq] at h
    obtain ⟨rfl, h2⟩ := h
    exact ⟨.inr ⟨later, rfl⟩, by simpa using h2⟩

/-- A Send with the bus configured and an engine that completes at once (R90, R92, R95). -/
theorem sendByte_prompt {s : State} (opc : Byte) (k : Kind) (b : Byte) (hb : s.busReady = true)
    (he : s.promptFor 1 = true) :
    sendByte opc k b s = .ok { s with
      sceN := true, dc := modeLevel k, sdr := b, tc := true, phase := .busy, engine := s.engine.drop 1,
      wave := s.wave ++ envelope k b, hist := s.hist ++ [.bus k b] } := by
  rcases (State.promptFor_succ he).1 with h | ⟨later, h⟩ <;>
    simp [sendByte, hb, awaitTc, engineStep, engineAnswer, State.sendStart, State.sendEnd, State.driveSceN,
      State.driveDc, State.writeSdr, State.transferDone, State.emit, envelope, h]

/-- A Send whose transfer never completes (R156). -/
theorem sendByte_dead {s : State} (opc : Byte) (k : Kind) (b : Byte) {later : List (Option Nat)}
    (hb : s.busReady = true) (he : s.engine = none :: later) :
    sendByte opc k b s = .held k b (s.sendStart k b) := by
  simp [sendByte, hb, awaitTc, engineStep, engineAnswer, he]

end Sys2Proof.Machine
end

