-- ==== Sys2Proof/Laws/Wave.lean ====
section
/-! SUPPORT. The line writes read as envelopes (R92): what the writes of one Send, whole or begun, come to. -/

namespace Sys2Proof.Machine

/-- Reading the line writes goes on where it stood. -/
theorem readWave_append (p : FramePos × List (Bool × Byte)) (a b : List LineChange) :
    readWave p (a ++ b) = (readWave p a).bind (readWave · b) := by
  induction a generalizing p with
  | nil => rfl
  | cons c cs ih =>
    simp only [List.cons_append, readWave]
    cases frameStep p c with
    | none => rfl
    | some q => exact ih q

/-- The envelopes of a state whose line writes go on from those of another. -/
theorem State.frame_append {s t : State} {p : FramePos × List (Bool × Byte)} {w : List LineChange}
    (hs : s.frame = some p) (hw : t.wave = s.wave ++ w) : t.frame = readWave p w := by
  unfold State.frame at hs ⊢
  rw [hw, readWave_append, hs]
  rfl

/-- The envelopes are read from the line writes alone. -/
theorem State.frame_congr {s t : State} (h : t.wave = s.wave) : t.frame = s.frame := by
  unfold State.frame
  rw [h]

@[simp] theorem busBytes_append (a b : List Event) : busBytes (a ++ b) = busBytes a ++ busBytes b :=
  List.filterMap_append

@[simp] theorem busBytes_bus (k : Kind) (b : Byte) : busBytes [.bus k b] = [(modeLevel k, b)] := rfl
@[simp] theorem busBytes_rst (l : Bool) : busBytes [.rst l] = [] := rfl
@[simp] theorem busBytes_delay (d : Delay) : busBytes [.delay d] = [] := rfl
@[simp] theorem busBytes_busCfg : busBytes [.busCfg] = [] := rfl
@[simp] theorem busBytes_rsp (r : Response) : busBytes [.rsp r] = [] := rfl

/-- One whole Send frames its byte. -/
@[simp] theorem readWave_envelope (done : List (Bool × Byte)) (k : Kind) (b : Byte) :
    readWave (.between, done) (envelope k b) = some (.between, done ++ [(modeLevel k, b)]) := rfl

/-- A Send that waits for `TC`. -/
@[simp] theorem readWave_open (done : List (Bool × Byte)) (l : Bool) (b : Byte) :
    readWave (.between, done) [.sceN false, .dc l, .sdr b] = some (.shifting l b, done) := rfl

/-- The end of that wait. -/
@[simp] theorem readWave_close (done : List (Bool × Byte)) (l : Bool) (b : Byte) :
    readWave (.shifting l b, done) [.tcDone, .sceN true] = some (.between, done ++ [(l, b)]) := rfl

/-- The reset line moves outside every Send. -/
@[simp] theorem readWave_rstN (done : List (Bool × Byte)) (l : Bool) :
    readWave (.between, done) [.rstN l] = some (.between, done) := rfl

end Sys2Proof.Machine
end

