-- ==== Sys2Proof/Laws/Requests.lean ====
section
/-! SUPPORT. The run of a request's actions: how it goes on, what one relation kept by every action says of the whole
run, and the invariant. -/

namespace Sys2Proof.Machine

/-- The state that one action of a request leaves, in whichever of the three ways it ends. -/
def OpResult.gives (r : OpResult) (t : State) : Prop :=
  r = .ok t ∨ (∃ k b, r = .held k b t) ∨ r = .raised t

theorem runOps_cons_ok {opc : Byte} {op : Op} {rest : List Op} {s s' : State} (h : doOp opc op s = .ok s') :
    runOps opc (op :: rest) s = runOps opc rest s' := by
  simp [runOps, h]

theorem runOps_cons_held {opc : Byte} {op : Op} {rest : List Op} {s s' : State} {k : Kind} {b : Byte}
    (h : doOp opc op s = .held k b s') : runOps opc (op :: rest) s = .next (s'.hold opc k b rest) := by
  simp [runOps, h]

theorem runOps_cons_raised {opc : Byte} {op : Op} {rest : List Op} {s s' : State}
    (h : doOp opc op s = .raised s') : runOps opc (op :: rest) s = .next s' := by
  simp [runOps, h]

/-- A relation that every action of a request keeps is kept by its run. -/
theorem runOps_rel {R : State → State → Prop} {opc : Byte} (hrefl : ∀ s, R s s)
    (htrans : ∀ s t u, R s t → R t u → R s u) (hhold : ∀ s k b rest, R s (s.hold opc k b rest)) :
    ∀ (ops : List Op), (∀ op ∈ ops, ∀ s t, (doOp opc op s).gives t → R s t) →
      ∀ s t, runOps opc ops s = .next t → R s t := by
  intro ops
  induction ops with
  | nil =>
    intro _ s t h
    simp only [runOps, Host.Outcome.next.injEq] at h
    exact h ▸ hrefl s
  | cons op rest ih =>
    intro hop s t h
    have here := hop op (by simp) s
    have later := ih (fun o ho => hop o (by simp [ho]))
    cases hd : doOp opc op s with
    | ok s' =>
      rw [runOps_cons_ok hd] at h
      exact htrans _ _ _ (here s' (.inl hd)) (later s' t h)
    | held k b s' =>
      rw [runOps_cons_held hd] at h
      cases h
      exact htrans _ _ _ (here s' (.inr (.inl ⟨k, b, hd⟩))) (hhold _ _ _ _)
    | raised s' =>
      rw [runOps_cons_raised hd] at h
      cases h
      exact here _ (.inr (.inr hd))
    | badIndex i => simp [runOps, hd] at h

/-- The same for a whole request. -/
theorem request_rel {R : State → State → Prop} {opc : Byte} {ops : List Op} (hrefl : ∀ s, R s s)
    (htrans : ∀ s t u, R s t → R t u → R s u) (hhold : ∀ s k b rest, R s (s.hold opc k b rest))
    (hbegin : ∀ s : State, R s s.begin)
    (hop : ∀ op ∈ ops, ∀ s t, (doOp opc op s).gives t → R s t) {s t : State}
    (h : request opc ops s = .next t) : R s t :=
  htrans _ _ _ (hbegin s) (runOps_rel hrefl htrans hhold ops hop _ _ h)

/-- What a Send leaves: the framer's lines and their record, the phase, the engine's record, `HIST` and `FAULT` may
change; nothing else. -/
theorem sendByte_gives {opc : Byte} {k : Kind} {b : Byte} {s t : State} (h : (sendByte opc k b s).gives t) :
    ∃ n d r c p e f w es, t = { s with
      sceN := n, dc := d, sdr := r, tc := c, phase := p, engine := e, fault := f, wave := s.wave ++ w,
      hist := s.hist ++ es } := by
  rcases sendByte_cases opc k b s with ⟨_, hs⟩ | ⟨_, e, hs⟩ | ⟨_, e, hs⟩ <;> rw [hs] at h <;>
    rcases h with h | ⟨_, _, h⟩ | h <;> cases h
  · exact ⟨_, _, _, _, _, _, _, [], [], by rw [List.append_nil, List.append_nil]; rfl⟩
  · exact ⟨_, _, _, _, _, _, _, _, [.bus k b], rfl⟩
  · exact ⟨_, _, _, _, _, _, _, _, [], by rw [List.append_nil]⟩

/-! ### The invariant -/

/-- A state in the middle of a request, between two of its actions. -/
structure State.Mid (s : State) : Prop where
  fbWf : s.fb.wf = true
  curRange : s.cur < Config.nFb
  fiRange : s.fi ≤ Config.nFb
  initReady : s.initDone = true → s.busReady = true
  riCounts : s.hist.countP Event.isRsp = s.ri
  sceN : s.sceN = true
  frame : s.frame = some (.between, busBytes s.hist)
  phase : s.phase = .busy
  noFault : s.fault = none
  noPending : s.pending = none

/-- A fault in the middle of a request leaves the invariant true. -/
theorem State.Mid.raised {s : State} (h : s.Mid) (r : FaultRecord) : (s.raiseFault r).Inv where
  fbWf := h.fbWf
  curRange := h.curRange
  fiRange := h.fiRange
  initReady := h.initReady
  riCounts := h.riCounts
  waiting := fun p hp => absurd hp (by simp [h.noPending])
  settled := fun _ => ⟨h.sceN, h.frame, .inr ⟨h.phase, by simp⟩⟩

/-- A Send in the middle of a request: the request goes on in the middle, is held, or ends with a fault; in each case
the invariant's parts are as they should be. -/
theorem State.Mid.send {s : State} (h : s.Mid) (opc : Byte) (k : Kind) (b : Byte) :
    (∃ t, sendByte opc k b s = .ok t ∧ t.Mid ∧ t.busReady = true ∧ t.fi = s.fi) ∨
    (∃ t, sendByte opc k b s = .held k b t ∧
      ∀ rest, opsSafe true s.fi rest = true → (t.hold opc k b rest).Inv) ∨
    (∃ t, sendByte opc k b s = .raised t ∧ t.Inv) := by
  rcases sendByte_cases opc k b s with ⟨_, hs⟩ | ⟨hb, e, hs⟩ | ⟨hb, e, hs⟩
  · exact .inr (.inr ⟨_, hs, h.raised _⟩)
  · refine .inl ⟨_, hs, ?_, hb, rfl⟩
    refine ⟨h.fbWf, h.curRange, h.fiRange, h.initReady,
      by simp [List.countP_append, Event.isRsp, h.riCounts], rfl, ?_, rfl, h.noFault, h.noPending⟩
    rw [State.frame_append h.frame rfl]
    simp
  · refine .inr (.inl ⟨_, hs, fun rest hr => ?_⟩)
    refine ⟨h.fbWf, h.curRange, h.fiRange, h.initReady, h.riCounts, fun p hp => ?_, fun hp => absurd hp (by simp)⟩
    cases hp
    exact ⟨rfl, rfl, rfl, rfl, rfl, hb, h.noFault, by rw [State.frame_append h.frame rfl]; rfl, hr⟩

/-- The run of safe actions from the middle of a request answers a next state, which meets the invariant. -/
theorem runOps_inv (opc : Byte) : ∀ (ops : List Op) (sent : Bool) (s : State), opsSafe sent s.fi ops = true →
    (sent = true → s.busReady = true) → s.Mid → ∃ t, runOps opc ops s = .next t ∧ t.Inv := by
  intro ops
  induction ops with
  | nil => intro sent s h; simp [opsSafe] at h
  | cons op rest ih =>
    intro sent s hsafe hsent hm
    have ofSend : ∀ k b, doOp opc op s = sendByte opc k b s → opsSafe true s.fi rest = true →
        ∃ t, runOps opc (op :: rest) s = .next t ∧ t.Inv := by
      intro k b hd hr
      rcases hm.send opc k b with ⟨t, hs, ht, hb, hfi⟩ | ⟨t, hs, ht⟩ | ⟨t, hs, ht⟩
      · rw [runOps_cons_ok (hd.trans hs)]
        exact ih true t (by rw [hfi]; exact hr) (fun _ => hb) ht
      · exact ⟨_, runOps_cons_held (hd.trans hs), ht rest hr⟩
      · exact ⟨_, runOps_cons_raised (hd.trans hs), ht⟩
    have ofOk : ∀ {s' : State} (sent' : Bool), doOp opc op s = .ok s' → opsSafe sent' s'.fi rest = true →
        (sent' = true → s'.busReady = true) → s'.Mid → ∃ t, runOps opc (op :: rest) s = .next t ∧ t.Inv := by
      intro s' sent' hd hr hb ht
      rw [runOps_cons_ok hd]
      exact ih sent' s' hr hb ht
    obtain ⟨h1, h2, h3, h4, h5, h6, hw, h7, h8, h9⟩ := id hm
    cases op with
    | send k b => exact ofSend k b rfl hsafe
    | sendFb =>
      simp only [opsSafe, Bool.and_eq_true, decide_eq_true_eq] at hsafe
      exact ofSend .data (s.fbByte s.fi) (by simp [doOp, State.memRead_of_lt s hsafe.1]) hsafe.2
    | setFi n =>
      simp only [opsSafe, Bool.and_eq_true, decide_eq_true_eq] at hsafe
      exact ofOk sent rfl hsafe.2 hsent ⟨h1, h2, hsafe.1, h4, h5, h6, hw, h7, h8, h9⟩
    | incFi =>
      simp only [opsSafe, Bool.and_eq_true, decide_eq_true_eq] at hsafe
      exact ofOk sent rfl hsafe.2 hsent ⟨h1, h2, hsafe.1, h4, h5, h6, hw, h7, h8, h9⟩
    | setCur n =>
      simp only [opsSafe, Bool.and_eq_true, decide_eq_true_eq] at hsafe
      exact ofOk sent rfl hsafe.2 hsent ⟨h1, hsafe.1, h3, h4, h5, h6, hw, h7, h8, h9⟩
    | flushCur =>
      refine ofOk sent rfl hsafe hsent ⟨h1, ?_, h3, h4, h5, h6, hw, h7, h8, h9⟩
      show flushCursor _ s.cur < _
      unfold flushCursor
      split
      · exact h2
      · decide
    | orAtCur m =>
      refine ofOk (s' := { s with fb := s.fb.set s.cur (s.fbByte s.cur ||| m) }) sent ?_ hsafe hsent
        ⟨Memory.wf_set h1 h2, h2, h3, h4, h5, h6, hw, h7, h8, h9⟩
      simp [doOp, State.memRead_of_lt s h2, State.memWrite_of_lt s _ h2]
    | memWrite i v =>
      simp only [opsSafe, Bool.and_eq_true, decide_eq_true_eq] at hsafe
      refine ofOk (s' := { s with fb := s.fb.set i v }) sent ?_ hsafe.2 hsent
        ⟨Memory.wf_set h1 hsafe.1.2, h2, h3, h4, h5, h6, hw, h7, h8, h9⟩
      simp [doOp, State.memWrite_of_lt s _ hsafe.1.2]
    | setLine r => exact ofOk sent rfl hsafe hsent ⟨h1, h2, h3, h4, h5, h6, hw, h7, h8, h9⟩
    | driveRst l =>
      refine ofOk sent rfl hsafe hsent
        ⟨h1, h2, h3, h4, by simp [List.countP_append, Event.isRsp, h5], h6, ?_, h7, h8, h9⟩
      rw [State.frame_append hw rfl]
      simp
    | delay d =>
      exact ofOk sent rfl hsafe hsent
        ⟨h1, h2, h3, h4, by simp [platformWait, List.countP_append, Event.isRsp, h5], h6,
          hw.trans (by simp [platformWait]), h7, h8, h9⟩
    | busConfig =>
      exact ofOk true rfl hsafe (fun _ => rfl)
        ⟨h1, h2, h3, fun _ => rfl, by simp [List.countP_append, Event.isRsp, h5], h6,
          hw.trans (by simp), h7, h8, h9⟩
    | setInitDone =>
      simp only [opsSafe, Bool.and_eq_true] at hsafe
      exact ofOk sent rfl hsafe.2 hsent ⟨h1, h2, h3, fun _ => hsent hsafe.1, h5, h6, hw, h7, h8, h9⟩
    | respond r =>
      simp only [opsSafe, List.isEmpty_iff] at hsafe
      subst hsafe
      refine ⟨s.respond r, rfl, h1, h2, h3, h4, ?_, fun p hp => absurd hp (by simp [h9]), fun _ => ⟨h6, ?_, .inl rfl⟩⟩
      · simp [List.countP_append, Event.isRsp, h5]
      · exact hw.trans (by simp)

/-- The block takes up a request from a state with no request held and no fault. -/
theorem State.Inv.begin {s : State} (h : s.Inv) (hp : s.pending = none) (hf : s.fault = none) : s.begin.Mid :=
  ⟨h.fbWf, h.curRange, h.fiRange, h.initReady, h.riCounts, (h.settled hp).sceN, (h.settled hp).frame, rfl, hf, rfl⟩

end Sys2Proof.Machine
end

