-- ==== Sys2Proof/Laws/Scripts.lean ====
section
/-! SUPPORT. The actions of each request: which they are, and that they are safe. -/

namespace Sys2Proof.Machine

theorem validPix_iff {x y : Nat} : validPix x y = true ↔ x ≤ 47 ∧ y ≤ 83 := by
  simp only [validPix, Bool.and_eq_true, decide_eq_true_eq, Config.pixX, Config.pixY]
  omega

theorem validCell_iff {row col : Nat} : validCell row col = true ↔ row ≤ 5 ∧ col ≤ 13 := by
  simp only [validCell, Bool.and_eq_true, decide_eq_true_eq, Config.rows, Config.textCols]
  omega

theorem pixIndex_lt {x y : Nat} (h : validPix x y = true) : pixIndex x y < Config.nFb := by
  simp only [validPix, Bool.and_eq_true, decide_eq_true_eq, Config.pixX, Config.pixY] at h
  simp only [pixIndex, Config.bankH, Config.cols, Config.nFb]
  omega

theorem textIndex_lt {row col : Nat} (h : validCell row col = true) : textIndex row col < Config.nFb := by
  simp only [validCell, Bool.and_eq_true, decide_eq_true_eq, Config.rows, Config.textCols] at h
  simp only [textIndex, Config.cellW, Config.cols, Config.nFb]
  omega

/-- A list of actions that may stand before any safe rest of a request that moves no `FI`. -/
theorem opsSafe_textPosOps (row col fi : Nat) (rest : List Op) (sent : Bool)
    (h : ∀ b, (sent = true → b = true) → opsSafe b fi rest = true) :
    opsSafe sent fi (textPosOps row col ++ rest) = true := by
  unfold textPosOps
  split
  · rename_i hv
    simp [posCmds, opsSafe, textIndex_lt hv, h true]
  · exact h sent id

theorem opsSafe_pixPosOps (x y fi : Nat) (rest : List Op) (sent : Bool)
    (h : ∀ b, (sent = true → b = true) → opsSafe b fi rest = true) :
    opsSafe sent fi (pixPosOps x y ++ rest) = true := by
  unfold pixPosOps
  split
  · rename_i hv
    simp [posCmds, opsSafe, pixIndex_lt hv, h true]
  · exact h sent id

theorem opsSafe_drawPixOps (x y fi : Nat) (rest : List Op) (sent : Bool)
    (h : ∀ b, (sent = true → b = true) → opsSafe b fi rest = true) :
    opsSafe sent fi (drawPixOps x y ++ rest) = true := by
  unfold drawPixOps
  split
  · rw [List.append_assoc]
    exact opsSafe_pixPosOps x y fi _ sent (fun b hb => by simpa [opsSafe] using h b hb)
  · exact h sent id

theorem opsSafe_line (trace : List LineRegs) (fi : Nat) (sent : Bool) :
    opsSafe sent fi (trace.flatMap plotOps ++ [.respond .ok]) = true := by
  induction trace generalizing sent with
  | nil => simp [opsSafe]
  | cons r trace ih =>
    simp only [List.flatMap_cons, plotOps, List.cons_append, List.append_assoc, opsSafe]
    exact opsSafe_drawPixOps _ _ _ _ _ (fun b _ => ih b)

/-- `n` turns of FLUSH's loop from `FI = fi`. -/
theorem opsSafe_flushTurns (n fi : Nat) (sent : Bool) (h : fi + n ≤ Config.nFb) :
    opsSafe sent fi ((List.replicate n [Op.sendFb, Op.incFi]).flatten ++ [.respond .done]) = true := by
  induction n generalizing fi sent with
  | zero => simp [opsSafe]
  | succ n ih =>
    have h1 : fi < Config.nFb := by omega
    simp only [List.replicate_succ, List.flatten_cons, List.cons_append, List.nil_append, opsSafe, h1,
      decide_true, Bool.true_and]
    exact ih (fi + 1) true (by omega)

theorem opsSafe_clear (is : List Nat) (fi : Nat) (h : ∀ i ∈ is, i < Config.nFb) :
    opsSafe false fi (is.map (fun i => Op.memWrite i 0x00) ++ [.respond .done]) = true := by
  induction is with
  | nil => simp [opsSafe]
  | cons i is ih =>
    simp only [List.map_cons, List.cons_append, opsSafe, h i (by simp), decide_true, Bool.not_false, Bool.true_and]
    exact ih (fun j hj => h j (by simp [hj]))

/-- The actions of each request. -/
def requestOps : Instr → List Op
  | .send k b => [.send k b, .respond .done]
  | .init => resetPulse ++ configCommands ++ [.setInitDone, .respond .done]
  | .clear => (List.range Config.nFb).map (fun i => .memWrite i 0x00) ++ [.respond .done]
  | .flush => posCmds 0 0 ++ [.flushCur, .setFi 0] ++ flushLoop ++ [.respond .done]
  | .settextpos row col => textPosOps row col ++ [.respond (rangeStatus (validCell row col))]
  | .setpixpos x y => pixPosOps x y ++ [.respond (rangeStatus (validPix x y))]
  | .drawpixel x y => drawPixOps x y ++ [.respond (rangeStatus (validPix x y))]
  | .drawline x1 x2 y1 y2 => (lineTrace x1 x2 y1 y2).flatMap plotOps ++ [.respond .ok]

/-- A request that is not a second INIT is the run of its actions. -/
theorem exec_eq_request {i : Instr} {s : State} (h : i = .init → s.initDone = false) :
    exec i s = request i.opcode (requestOps i) s := by
  cases i
  case init => simp [exec, execInit, h rfl, requestOps, Instr.opcode]
  all_goals rfl

/-- A second INIT (R153). -/
theorem exec_init_again {s : State} (h : s.initDone = true) :
    exec .init s = .next (s.begin.raiseFault (.reinit s.ri)) := by
  simp [exec, execInit, h]

/-- The two ways a request runs. -/
theorem exec_cases (i : Instr) (s : State) :
    (i = .init ∧ s.initDone = true ∧ exec i s = .next (s.begin.raiseFault (.reinit s.ri))) ∨
    exec i s = request i.opcode (requestOps i) s := by
  by_cases h : i = .init ∧ s.initDone = true
  · obtain ⟨rfl, hd⟩ := h
    exact .inl ⟨rfl, hd, exec_init_again hd⟩
  · refine .inr (exec_eq_request fun hi => ?_)
    rcases Bool.eq_false_or_eq_true s.initDone with hd | hd
    · exact absurd ⟨hi, hd⟩ h
    · exact hd

/-- The actions of every request are safe from its start. -/
theorem opsSafe_requestOps (i : Instr) (fi : Nat) : opsSafe false fi (requestOps i) = true := by
  cases i with
  | send k b => rfl
  | init => rfl
  | clear => exact opsSafe_clear _ _ (by simp)
  | flush =>
    simp only [requestOps, posCmds, List.cons_append, List.nil_append, opsSafe, Nat.zero_le, decide_true,
      Bool.true_and]
    exact opsSafe_flushTurns _ _ _ (by simp)
  | settextpos row col => exact opsSafe_textPosOps _ _ _ _ _ (fun _ _ => rfl)
  | setpixpos x y => exact opsSafe_pixPosOps _ _ _ _ _ (fun _ _ => rfl)
  | drawpixel x y => exact opsSafe_drawPixOps _ _ _ _ _ (fun _ _ => rfl)
  | drawline x1 x2 y1 y2 => exact opsSafe_line _ _ _

/-- The actions that `DrawPix` takes. -/
theorem mem_drawPixOps {x y : Nat} {op : Op} (h : op ∈ drawPixOps x y) :
    validPix x y = true ∧ ((∃ b, op = .send .cmd b) ∨ op = .setCur (pixIndex x y) ∨ op = .orAtCur (pixMask x)) := by
  unfold drawPixOps pixPosOps at h
  split at h
  · rename_i hv
    simp only [posCmds, List.cons_append, List.nil_append, List.mem_cons, List.not_mem_nil, or_false] at h
    rcases h with h | h | h | h
    · exact ⟨hv, .inl ⟨_, h⟩⟩
    · exact ⟨hv, .inl ⟨_, h⟩⟩
    · exact ⟨hv, .inr (.inl h)⟩
    · exact ⟨hv, .inr (.inr h)⟩
  · simp at h

/-- The actions of a request other than its response. -/
def Instr.takes : Instr → Op → Prop
  | .send k b, op => op = .send k b
  | .init, op => (∃ l, op = .driveRst l) ∨ (∃ d, op = .delay d) ∨ op = .busConfig ∨ (∃ b, op = .send .cmd b) ∨
      op = .setInitDone
  | .clear, op => ∃ a, a < Config.nFb ∧ op = .memWrite a 0x00
  | .flush, op => (∃ b, op = .send .cmd b) ∨ op = .flushCur ∨ op = .setFi 0 ∨ op = .sendFb ∨ op = .incFi
  | .settextpos row col, op =>
    validCell row col = true ∧ ((∃ b, op = .send .cmd b) ∨ op = .setCur (textIndex row col))
  | .setpixpos x y, op => validPix x y = true ∧ ((∃ b, op = .send .cmd b) ∨ op = .setCur (pixIndex x y))
  | .drawpixel x y, op => validPix x y = true ∧
      ((∃ b, op = .send .cmd b) ∨ op = .setCur (pixIndex x y) ∨ op = .orAtCur (pixMask x))
  | .drawline x1 x2 y1 y2, op => (∃ r, op = .setLine r) ∨ ∃ q ∈ plottedPixels x1 x2 y1 y2,
      ((∃ b, op = .send .cmd b) ∨ op = .setCur (pixIndex q.1 q.2) ∨ op = .orAtCur (pixMask q.1))

/-- Which actions each request has. -/
theorem mem_requestOps {i : Instr} {op : Op} (h : op ∈ requestOps i) :
    (∃ r, op = .respond r) ∨ Instr.takes i op := by
  cases i with
  | send k b =>
    simp only [requestOps, List.mem_cons, List.not_mem_nil, or_false] at h
    rcases h with h | h
    · exact .inr h
    · exact .inl ⟨_, h⟩
  | init =>
    simp only [requestOps, resetPulse, configCommands, List.mem_append, List.mem_cons, List.mem_map, List.not_mem_nil,
      or_false] at h
    rcases h with ((h | h | h | h | h) | ⟨k, _, h⟩) | h | h
    · exact .inr (.inl ⟨_, h⟩)
    · exact .inr (.inr (.inl ⟨_, h⟩))
    · exact .inr (.inl ⟨_, h⟩)
    · exact .inr (.inr (.inl ⟨_, h⟩))
    · exact .inr (.inr (.inr (.inl h)))
    · exact .inr (.inr (.inr (.inr (.inl ⟨_, h.symm⟩))))
    · exact .inr (.inr (.inr (.inr (.inr h))))
    · exact .inl ⟨_, h⟩
  | clear =>
    simp only [requestOps, List.mem_append, List.mem_map, List.mem_range, List.mem_cons, List.not_mem_nil,
      or_false] at h
    rcases h with ⟨a, ha, h⟩ | h
    · exact .inr ⟨a, ha, h.symm⟩
    · exact .inl ⟨_, h⟩
  | flush =>
    simp only [requestOps, posCmds, flushLoop, List.mem_append, List.mem_cons, List.mem_flatten, List.mem_replicate,
      List.not_mem_nil, or_false] at h
    rcases h with (((h | h) | h | h) | ⟨l, ⟨_, rfl⟩, h⟩) | h
    · exact .inr (.inl ⟨_, h⟩)
    · exact .inr (.inl ⟨_, h⟩)
    · exact .inr (.inr (.inl h))
    · exact .inr (.inr (.inr (.inl h)))
    · simp only [List.mem_cons, List.not_mem_nil, or_false] at h
      exact .inr (.inr (.inr (.inr h)))
    · exact .inl ⟨_, h⟩
  | settextpos row col =>
    simp only [requestOps, textPosOps, List.mem_append, List.mem_cons, List.not_mem_nil, or_false] at h
    rcases h with h | h
    · split at h
      · rename_i hv
        simp only [posCmds, List.mem_append, List.mem_cons, List.not_mem_nil, or_false] at h
        rcases h with (h | h) | h
        · exact .inr ⟨hv, .inl ⟨_, h⟩⟩
        · exact .inr ⟨hv, .inl ⟨_, h⟩⟩
        · exact .inr ⟨hv, .inr h⟩
      · simp at h
    · exact .inl ⟨_, h⟩
  | setpixpos x y =>
    simp only [requestOps, pixPosOps, List.mem_append, List.mem_cons, List.not_mem_nil, or_false] at h
    rcases h with h | h
    · split at h
      · rename_i hv
        simp only [posCmds, List.mem_append, List.mem_cons, List.not_mem_nil, or_false] at h
        rcases h with (h | h) | h
        · exact .inr ⟨hv, .inl ⟨_, h⟩⟩
        · exact .inr ⟨hv, .inl ⟨_, h⟩⟩
        · exact .inr ⟨hv, .inr h⟩
      · simp at h
    · exact .inl ⟨_, h⟩
  | drawpixel x y =>
    simp only [requestOps, List.mem_append, List.mem_cons, List.not_mem_nil, or_false] at h
    rcases h with h | h
    · exact .inr (mem_drawPixOps h)
    · exact .inl ⟨_, h⟩
  | drawline x1 x2 y1 y2 =>
    simp only [requestOps, plotOps, List.mem_append, List.mem_flatMap, List.mem_cons, List.not_mem_nil, or_false] at h
    rcases h with ⟨r, hr, h | h⟩ | h
    · exact .inr (.inl ⟨_, h⟩)
    · obtain ⟨hv, h⟩ := mem_drawPixOps h
      refine .inr (.inr ⟨(r.ly.toNat, r.lx.toNat), ?_, h⟩)
      rw [validPix_iff] at hv
      simp only [plottedPixels, linePoints, List.mem_filter, List.mem_map, Bool.and_eq_true, decide_eq_true_eq]
      exact ⟨⟨(r.lx, r.ly), ⟨r, hr, rfl⟩, rfl⟩, hv⟩
    · exact .inl ⟨_, h⟩

/-- One inversion lemma for `step`: what it can do when it answers a next state. -/
theorem step_cases {s t : State} (h : step s = .next t) :
    s.fault = none ∧ s.refused = false ∧
    ((s.phase = .idle ∧ s.req = [] ∧ t = s) ∨
     (s.phase = .idle ∧ ∃ w later e, s.req = w :: later ∧ decode w = .error e ∧
        t = { s with req := later, refused := true }) ∨
     (s.phase = .idle ∧ ∃ w later i, s.req = w :: later ∧ decode w = .ok i ∧ exec i { s with req := later } = .next t) ∨
     (s.phase ≠ .idle ∧ ∃ p, s.pending = some p ∧ resume p s = .next t) ∨
     (s.phase ≠ .idle ∧ s.pending = none ∧ t = s)) := by
  have phases : s.phase = .idle ∨ s.phase = .busy ∨ s.phase = .waitTc := by cases s.phase <;> simp
  rcases Option.eq_none_or_eq_some s.fault with hf | ⟨r, hf⟩
  swap
  · simp [step, hf] at h
  rcases Bool.eq_false_or_eq_true s.refused with hr | hr
  · simp [step, hf, hr] at h
  refine ⟨hf, hr, ?_⟩
  rcases phases with hi | hn
  · simp only [step, hf, hr, hi, acceptRequest, State.takeRequest, Bool.false_eq_true, if_false] at h
    rcases hq : s.req with _ | ⟨w, later⟩ <;> simp only [hq] at h
    · cases h
      exact .inl ⟨hi, rfl, rfl⟩
    · rcases hd : decode w with e | i <;> simp only [hd] at h
      · cases h
        exact .inr (.inl ⟨hi, w, later, e, rfl, hd, by simp [State.refuse, hf, hi]⟩)
      · exact .inr (.inr (.inl ⟨hi, w, later, i, rfl, hd, by simpa [hf, hi, hr] using h⟩))
  · have hne : s.phase ≠ .idle := by rcases hn with h | h <;> simp [h]
    rcases Option.eq_none_or_eq_some s.pending with hp | ⟨p, hp⟩
    · refine .inr (.inr (.inr (.inr ⟨hne, hp, ?_⟩)))
      rcases hn with hn | hn <;> simpa [step, hf, hr, hn, hp] using h.symm
    · refine .inr (.inr (.inr (.inl ⟨hne, p, hp, ?_⟩)))
      rcases hn with hn | hn <;> simpa [step, hf, hr, hn, hp] using h

end Sys2Proof.Machine
end

