-- ==== Sys2Proof/Laws/Frame.lean ====
section
/-! SUPPORT. The frame of one action, and of a whole request: a relation that every action of a request keeps. -/

namespace Sys2Proof.Machine

/-- What a Send leaves alone. -/
theorem sendByte_frame {opc : Byte} {k : Kind} {b : Byte} {s t : State} (h : (sendByte opc k b s).gives t) :
    t.fb = s.fb ∧ t.cur = s.cur ∧ t.rstN = s.rstN ∧ t.busReady = s.busReady ∧ t.initDone = s.initDone ∧
    t.line = s.line ∧ t.fi = s.fi ∧ t.refused = s.refused ∧ t.req = s.req ∧ t.ri = s.ri ∧
    t.pending = s.pending ∧ (∃ w, t.wave = s.wave ++ w) ∧ ∃ es, t.hist = s.hist ++ es := by
  obtain ⟨_, _, _, _, _, _, _, w, es, rfl⟩ := sendByte_gives h
  exact ⟨rfl, rfl, rfl, rfl, rfl, rfl, rfl, rfl, rfl, rfl, rfl, ⟨w, rfl⟩, es, rfl⟩

/-- What one action may change, and which action changes it. -/
structure OpFrame (op : Op) (s t : State) : Prop where
  fb : t.fb = s.fb ∨ (∃ m, op = .orAtCur m ∧ s.cur < Config.nFb ∧ t.fb = s.fb.set s.cur (s.fbByte s.cur ||| m)) ∨
    (∃ i v, op = .memWrite i v ∧ i < Config.nFb ∧ t.fb = s.fb.set i v)
  cur : t.cur = s.cur ∨ op = .setCur t.cur ∨ (op = .flushCur ∧ t.cur = flushCursor Config.flushCursor s.cur)
  rstN : t.rstN = s.rstN ∨ op = .driveRst t.rstN
  busReady : t.busReady = s.busReady ∨ (op = .busConfig ∧ t.busReady = true)
  initDone : t.initDone = s.initDone ∨ (op = .setInitDone ∧ t.initDone = true)
  line : t.line = s.line ∨ op = .setLine t.line
  fi : t.fi = s.fi ∨ op = .incFi ∨ op = .setFi t.fi
  refused : t.refused = s.refused
  req : t.req = s.req
  hist : ∃ es, t.hist = s.hist ++ es
  wave : ∃ w, t.wave = s.wave ++ w
  ri : t.ri = s.ri ∨ ∃ r, op = .respond r
  lines : (t.sceN = s.sceN ∧ t.dc = s.dc ∧ t.sdr = s.sdr ∧ t.tc = s.tc ∧ t.engine = s.engine ∧ t.fault = s.fault) ∨
    (∃ k b, op = .send k b) ∨ op = .sendFb
  quiet : t.wave = s.wave ∨ (∃ k b, op = .send k b) ∨ op = .sendFb ∨ ∃ l, op = .driveRst l

theorem OpFrame.of_send {op : Op} {s t : State} {opc : Byte} {k : Kind} {b : Byte}
    (hop : (∃ k b, op = .send k b) ∨ op = .sendFb) (h : (sendByte opc k b s).gives t) : OpFrame op s t := by
  obtain ⟨h1, h2, h3, h4, h5, h6, h7, h8, h9, h10, _, hw, h12⟩ := sendByte_frame h
  exact ⟨.inl h1, .inl h2, .inl h3, .inl h4, .inl h5, .inl h6, .inl h7, h8, h9, h12, hw, .inl h10, .inr hop,
    .inr (hop.imp_right .inl)⟩

theorem doOp_frame {opc : Byte} {op : Op} {s t : State} (h : (doOp opc op s).gives t) : OpFrame op s t := by
  have same : ∀ es : State, t = es → (OpResult.ok es).gives t := fun _ h => .inl (h ▸ rfl)
  cases op with
  | send k b => exact .of_send (.inl ⟨k, b, rfl⟩) h
  | sendFb =>
    simp only [doOp] at h
    split at h
    · exact .of_send (.inr rfl) h
    · rcases h with h | ⟨_, _, h⟩ | h <;> cases h
  | orAtCur m =>
    simp only [doOp] at h
    by_cases hc : s.cur < Config.nFb
    · simp only [State.memRead_of_lt s hc, State.memWrite_of_lt s _ hc] at h
      rcases h with h | ⟨_, _, h⟩ | h <;> cases h
      exact ⟨.inr (.inl ⟨m, rfl, hc, rfl⟩), .inl rfl, .inl rfl, .inl rfl, .inl rfl, .inl rfl, .inl rfl, rfl, rfl,
        ⟨[], by simp⟩, ⟨[], by simp⟩, .inl rfl, .inl ⟨rfl, rfl, rfl, rfl, rfl, rfl⟩, .inl rfl⟩
    · simp only [State.memRead, hc, if_false] at h
      rcases h with h | ⟨_, _, h⟩ | h <;> cases h
  | memWrite i v =>
    simp only [doOp] at h
    by_cases hc : i < Config.nFb
    · simp only [State.memWrite_of_lt s _ hc] at h
      rcases h with h | ⟨_, _, h⟩ | h <;> cases h
      exact ⟨.inr (.inr ⟨i, v, rfl, hc, rfl⟩), .inl rfl, .inl rfl, .inl rfl, .inl rfl, .inl rfl, .inl rfl, rfl, rfl,
        ⟨[], by simp⟩, ⟨[], by simp⟩, .inl rfl, .inl ⟨rfl, rfl, rfl, rfl, rfl, rfl⟩, .inl rfl⟩
    · simp only [State.memWrite, hc, if_false] at h
      rcases h with h | ⟨_, _, h⟩ | h <;> cases h
  | setFi | incFi | setCur | flushCur | setLine | driveRst | delay | busConfig | setInitDone | respond =>
    rcases h with h | ⟨_, _, h⟩ | h <;> cases h
    constructor <;> simp [State.emit, State.respond, platformWait]

/-- A relation that the actions of a request keep, and that holding, beginning and faulting keep, relates the states
before and after the request. -/
theorem exec_rel {R : State → State → Prop} {i : Instr} {s t : State} (hrefl : ∀ s, R s s)
    (htrans : ∀ s t u, R s t → R t u → R s u) (hhold : ∀ opc (s : State) k b rest, R s (s.hold opc k b rest))
    (hbegin : ∀ s : State, R s s.begin) (hfault : ∀ (s : State) r, R s (s.raiseFault r))
    (hop : ∀ op ∈ requestOps i, ∀ s t, OpFrame op s t → R s t) (h : exec i s = .next t) : R s t := by
  rcases exec_cases i s with ⟨_, _, he⟩ | he <;> rw [he] at h
  · cases h
    exact htrans _ _ _ (hbegin s) (hfault _ _)
  · exact request_rel hrefl htrans (hhold _) hbegin (fun op ho s t hg => hop op ho s t (doOp_frame hg)) h

end Sys2Proof.Machine
end

