-- ==== Sys2Proof/Laws/Prompt.lean ====
section
/-! SUPPORT. What the parts of the requests come to when the bus is configured and the engine completes each transfer
at once: one lemma per part, which the result of a request is put together from. -/

namespace Sys2Proof.Machine

/-- An engine prompt for `m` transfers is prompt for fewer. -/
theorem State.promptFor_le {s : State} {n m : Nat} (h : s.promptFor m = true) (hn : n ≤ m) : s.promptFor n = true := by
  simp only [State.promptFor, List.all_eq_true] at h ⊢
  exact fun a ha => h a (List.take_subset_take_left _ hn ha)

/-- After `n` prompt transfers the engine is prompt for the rest. -/
theorem State.promptFor_drop {s t : State} {n m : Nat} (h : s.promptFor (n + m) = true)
    (ht : t.engine = s.engine.drop n) : t.promptFor m = true := by
  simp only [State.promptFor, List.all_eq_true, ht] at h ⊢
  intro a ha
  refine h a ?_
  rw [List.take_add]
  exact List.mem_append_right _ ha

/-- One prompt Send at the head of the actions. -/
theorem runOps_send {s : State} (opc : Byte) (k : Kind) (b : Byte) (rest : List Op) (hb : s.busReady = true)
    (he : s.promptFor 1 = true) :
    runOps opc (.send k b :: rest) s = runOps opc rest { s with
      sceN := true, dc := modeLevel k, sdr := b, tc := true, phase := .busy, engine := s.engine.drop 1,
      wave := s.wave ++ envelope k b, hist := s.hist ++ [.bus k b] } :=
  runOps_cons_ok (sendByte_prompt opc k b hb he)

/-- The positioning pair (R110). -/
theorem runOps_posCmds {s : State} (opc : Byte) (bank col : Nat) (rest : List Op) (hb : s.busReady = true)
    (he : s.promptFor 2 = true) :
    runOps opc (posCmds bank col ++ rest) s = runOps opc rest { s with
      sceN := true, dc := Config.dcCmd, sdr := Config.cmdCol col, tc := true, phase := .busy,
      engine := s.engine.drop 2,
      wave := s.wave ++ (envelope .cmd (Config.cmdBank bank) ++ envelope .cmd (Config.cmdCol col)),
      hist := s.hist ++ [.bus .cmd (Config.cmdBank bank), .bus .cmd (Config.cmdCol col)] } := by
  simp only [posCmds, List.cons_append, List.nil_append]
  rw [runOps_send, runOps_send]
  · simp [modeLevel]
  · exact hb
  · exact State.promptFor_drop (n := 1) he rfl
  · exact hb
  · exact State.promptFor_le he (by omega)

/-- INIT's reset pulse and bus configuration (R101, R102): no transfer, so nothing holds it. -/
theorem runOps_resetPulse (opc : Byte) (rest : List Op) (s : State) :
    runOps opc (resetPulse ++ rest) s = runOps opc rest { s with
      rstN := true, busReady := true, wave := s.wave ++ [.rstN false, .rstN true],
      hist := s.hist ++ [.rst false, .delay .lo, .rst true, .delay .hi, .busCfg] } := by
  simp [resetPulse, runOps, doOp, State.driveRstN, State.emit, platformWait]

/-- The six configuration commands (R103). -/
theorem runOps_configCommands {s : State} (opc : Byte) (rest : List Op) (hb : s.busReady = true)
    (he : s.promptFor 6 = true) :
    runOps opc (configCommands ++ rest) s = runOps opc rest { s with
      sceN := true, dc := Config.dcCmd, sdr := Config.initSeq 5, tc := true, phase := .busy,
      engine := s.engine.drop 6,
      wave := s.wave ++ (List.range 6).flatMap (fun k => envelope .cmd (Config.initSeq k)),
      hist := s.hist ++ [.bus .cmd (Config.initSeq 0), .bus .cmd (Config.initSeq 1), .bus .cmd (Config.initSeq 2),
        .bus .cmd (Config.initSeq 3), .bus .cmd (Config.initSeq 4), .bus .cmd (Config.initSeq 5)] } := by
  have hc : configCommands = [.send .cmd (Config.initSeq 0), .send .cmd (Config.initSeq 1),
    .send .cmd (Config.initSeq 2), .send .cmd (Config.initSeq 3), .send .cmd (Config.initSeq 4),
    .send .cmd (Config.initSeq 5)] := rfl
  rw [hc]
  simp only [List.cons_append, List.nil_append]
  rw [runOps_send, runOps_send, runOps_send, runOps_send, runOps_send, runOps_send]
  · simp [modeLevel, show List.range 6 = [0, 1, 2, 3, 4, 5] from rfl]
  · exact hb
  · exact State.promptFor_drop (n := 5) (State.promptFor_le he (by omega)) (by simp)
  · exact hb
  · exact State.promptFor_drop (n := 4) (State.promptFor_le he (by omega)) (by simp)
  · exact hb
  · exact State.promptFor_drop (n := 3) (State.promptFor_le he (by omega)) (by simp)
  · exact hb
  · exact State.promptFor_drop (n := 2) (State.promptFor_le he (by omega)) (by simp)
  · exact hb
  · exact State.promptFor_drop (n := 1) (State.promptFor_le he (by omega)) rfl
  · exact hb
  · exact State.promptFor_le he (by omega)

/-- One turn of FLUSH's loop (R105). -/
theorem runOps_flushTurn {s : State} (opc : Byte) (rest : List Op) (hb : s.busReady = true)
    (he : s.promptFor 1 = true) (hfi : s.fi < Config.nFb) :
    runOps opc (.sendFb :: .incFi :: rest) s = runOps opc rest { s with
      sceN := true, dc := !Config.dcCmd, sdr := s.fbByte s.fi, tc := true, phase := .busy,
      engine := s.engine.drop 1, fi := s.fi + 1, wave := s.wave ++ envelope .data (s.fbByte s.fi),
      hist := s.hist ++ [.bus .data (s.fbByte s.fi)] } := by
  have h : doOp opc .sendFb s = sendByte opc .data (s.fbByte s.fi) s := by
    simp [doOp, State.memRead_of_lt s hfi]
  rw [runOps_cons_ok (h.trans (sendByte_prompt opc .data _ hb he)), runOps_cons_ok rfl]
  simp [modeLevel]

/-- The turns of FLUSH's loop from `FI = fi`, at least one of them. -/
theorem runOps_flushTurns (opc : Byte) (rest : List Op) : ∀ (n : Nat) (s : State), s.busReady = true →
    s.promptFor (n + 1) = true → s.fi + n < Config.nFb →
    runOps opc ((List.replicate (n + 1) [Op.sendFb, Op.incFi]).flatten ++ rest) s = runOps opc rest { s with
      sceN := true, dc := !Config.dcCmd, sdr := s.fbByte (s.fi + n), tc := true, phase := .busy,
      engine := s.engine.drop (n + 1), fi := s.fi + n + 1,
      wave := s.wave ++ (List.range' s.fi (n + 1)).flatMap (fun i => envelope .data (s.fbByte i)),
      hist := s.hist ++ (List.range' s.fi (n + 1)).map (fun i => Event.bus .data (s.fbByte i)) } := by
  intro n
  induction n with
  | zero =>
    intro s hb he hfi
    simpa using runOps_flushTurn opc rest hb he hfi
  | succ n ih =>
    intro s hb he hfi
    rw [List.replicate_succ, List.flatten_cons, List.append_assoc]
    simp only [List.cons_append, List.nil_append]
    rw [runOps_flushTurn opc _ hb (State.promptFor_le he (by omega)) (by omega), ih]
    · have hc : ∀ i, State.fbByte { s with
        sceN := true, dc := !Config.dcCmd, sdr := s.fbByte s.fi, tc := true, phase := .busy,
        engine := s.engine.drop 1, fi := s.fi + 1, wave := s.wave ++ envelope .data (s.fbByte s.fi),
        hist := s.hist ++ [.bus .data (s.fbByte s.fi)] } i = s.fbByte i :=
        fun i => State.fbByte_congr rfl i
      have e1 : s.fi + 1 + n = s.fi + (n + 1) := by omega
      have e2 : 1 + (n + 1) = n + 1 + 1 := by omega
      simp only [hc, List.drop_drop, List.append_assoc, e1, e2, List.range'_succ (s := s.fi) (n := n + 1),
        List.map_cons, List.flatMap_cons, List.cons_append, List.nil_append]
    · exact hb
    · exact State.promptFor_drop (n := 1) (by rw [Nat.add_comm]; exact he) rfl
    · simp only; omega

/-- CLEAR's writes (R116). -/
theorem runOps_clearWrites (opc : Byte) (rest : List Op) : ∀ (is : List Nat) (s : State), (∀ i ∈ is, i < Config.nFb) →
    ∃ fb : Memory, runOps opc (is.map (fun i => .memWrite i 0x00) ++ rest) s = runOps opc rest { s with fb := fb } ∧
      ∀ a, State.fbByte { s with fb := fb } a = if a ∈ is then 0 else s.fbByte a := by
  intro is
  induction is with
  | nil => exact fun s _ => ⟨s.fb, rfl, fun a => by simp⟩
  | cons i is ih =>
    intro s h
    have hi := h i (by simp)
    obtain ⟨fb, hr, ha⟩ := ih { s with fb := s.fb.set i 0 } (fun j hj => h j (by simp [hj]))
    refine ⟨fb, ?_, fun a => ?_⟩
    · simp only [List.map_cons, List.cons_append]
      have hd : doOp opc (.memWrite i 0) s = .ok { s with fb := s.fb.set i 0 } := by
        simp [doOp, State.memWrite_of_lt s _ hi]
      rw [runOps_cons_ok hd, hr]
    · rw [ha a, State.fbByte_set]
      by_cases h1 : a ∈ is <;> by_cases h2 : a = i <;> simp [h1, h2]

/-- A drawn pixel (R130), when it is on the display. -/
theorem runOps_drawPix {s : State} (opc : Byte) (x y : Nat) (rest : List Op) (hv : validPix x y = true)
    (hb : s.busReady = true) (he : s.promptFor 2 = true) :
    runOps opc (drawPixOps x y ++ rest) s = runOps opc rest { s with
      fb := s.fb.set (pixIndex x y) (s.fbByte (pixIndex x y) ||| pixMask x),
      cur := pixIndex x y, sceN := true, dc := Config.dcCmd, sdr := Config.cmdCol y, tc := true, phase := .busy,
      engine := s.engine.drop 2,
      wave := s.wave ++ (envelope .cmd (Config.cmdBank (pixBank x)) ++ envelope .cmd (Config.cmdCol y)),
      hist := s.hist ++ [.bus .cmd (Config.cmdBank (pixBank x)), .bus .cmd (Config.cmdCol y)] } := by
  have hi := pixIndex_lt hv
  simp only [drawPixOps, pixPosOps, hv, if_true, List.append_assoc]
  rw [runOps_posCmds _ _ _ _ hb he]
  simp only [List.cons_append, List.nil_append]
  rw [runOps_cons_ok rfl, runOps_cons_ok]
  simp only [doOp]
  rw [State.memRead_of_lt _ hi]
  simp only [State.memWrite_of_lt _ _ hi]
  rfl

/-- A pixel off the display has no action (R117, R137). -/
theorem drawPixOps_invalid {x y : Nat} (hv : validPix x y = false) : drawPixOps x y = [] := by
  simp [drawPixOps, hv]

end Sys2Proof.Machine
end

