-- ==== Sys2Proof/Laws/Line.lean ====
section
/-! SUPPORT. The plotting of a list of line points, said once: what it leaves when every transfer is prompt, and when
no point is on the display. -/

namespace Sys2Proof.Machine

/-- The bits of `pix_mask(x)` (R114). -/
theorem pixMask_getLsbD (x b : Nat) (hb : b < 8) : (pixMask x).getLsbD b = decide (b = x % 8) := by
  simp only [pixMask, pixBit, Config.bankH, BitVec.getLsbD_shiftLeft, hb, decide_true, Bool.true_and]
  by_cases h : b = x % 8
  · subst h
    simp
  · rw [decide_eq_false h, Bool.and_eq_false_iff]
    rcases Nat.lt_trichotomy b (x % 8) with h1 | h1 | h1
    · exact .inl (by simp [h1])
    · exact absurd h1 h
    · refine .inr ?_
      simp
      omega

/-- The pixels on the display among the points of a trace, in order. -/
def pixelsOf (trace : List LineRegs) : List (Nat × Nat) :=
  (trace.map (fun r => (r.ly.toNat, r.lx.toNat))).filter (fun q => decide (q.1 ≤ 47) && decide (q.2 ≤ 83))

theorem plottedPixels_eq (x1 x2 y1 y2 : Nat) : plottedPixels x1 x2 y1 y2 = pixelsOf (lineTrace x1 x2 y1 y2) := by
  simp [plottedPixels, pixelsOf, linePoints, Function.comp_def]

theorem pixelsOf_cons (r : LineRegs) (trace : List LineRegs) :
    pixelsOf (r :: trace) =
      if validPix r.ly.toNat r.lx.toNat then (r.ly.toNat, r.lx.toNat) :: pixelsOf trace else pixelsOf trace := by
  by_cases h : validPix r.ly.toNat r.lx.toNat = true
  · rw [if_pos h]
    rw [validPix_iff] at h
    simp [pixelsOf, h]
  · rw [if_neg h]
    rw [validPix_iff] at h
    simp only [pixelsOf, List.map_cons]
    rw [List.filter_cons_of_neg]
    simpa using h

/-- What plotting the pixels `ps` does. -/
structure LineEnd (s t : State) (ps : List (Nat × Nat)) : Prop where
  hist : t.hist = s.hist ++
    ps.flatMap (fun q => [Event.bus .cmd (Config.cmdBank (q.1 / 8)), Event.bus .cmd (Config.cmdCol q.2)])
  wave : t.wave = s.wave ++
    ps.flatMap (fun q => envelope .cmd (Config.cmdBank (q.1 / 8)) ++ envelope .cmd (Config.cmdCol q.2))
  cur : t.cur = (ps.getLast?.map (fun q => q.2 + q.1 / 8 * 84)).getD s.cur
  fb : ∀ a b, b < 8 → (t.fbByte a).getLsbD b =
    ((s.fbByte a).getLsbD b || ps.any (fun q => decide (a = q.2 + q.1 / 8 * 84) && decide (b = q.1 % 8)))
  lines : (t.sceN, t.dc, t.sdr, t.tc) = (match ps.getLast? with
    | none => (s.sceN, s.dc, s.sdr, s.tc)
    | some q => (true, Config.dcCmd, Config.cmdCol q.2, true))
  frame : t.pending = s.pending ∧ t.ri = s.ri ∧ t.engine = s.engine.drop (2 * ps.length) ∧
    t.rstN = s.rstN ∧ t.busReady = s.busReady ∧ t.initDone = s.initDone ∧ t.fi = s.fi ∧ t.fault = s.fault ∧
    t.refused = s.refused ∧ t.req = s.req

/-- Plotting with the bus configured and prompt transfers. -/
theorem runOps_plot (opc : Byte) (rest : List Op) : ∀ (trace : List LineRegs) (s : State), s.busReady = true →
    s.promptFor (2 * (pixelsOf trace).length) = true →
    ∃ t, runOps opc (trace.flatMap plotOps ++ rest) s = runOps opc rest t ∧ LineEnd s t (pixelsOf trace) := by
  intro trace
  induction trace with
  | nil =>
    exact fun s _ _ => ⟨s, rfl, by simp [pixelsOf], by simp [pixelsOf], by simp [pixelsOf], by simp [pixelsOf],
      by simp [pixelsOf], by simp [pixelsOf]⟩
  | cons r trace ih =>
    intro s hb he
    simp only [List.flatMap_cons, plotOps, List.cons_append, List.append_assoc]
    rw [runOps_cons_ok rfl]
    rw [pixelsOf_cons] at he ⊢
    split at he
    · rename_i hv
      rw [if_pos hv]
      simp only [List.length_cons] at he
      generalize hi : pixIndex r.ly.toNat r.lx.toNat = i
      rw [runOps_drawPix]
      · rw [hi]
        obtain ⟨t, ht, hl⟩ := ih { s with
            line := r, fb := s.fb.set i (s.fbByte i ||| pixMask r.ly.toNat), cur := i,
            sceN := true, dc := Config.dcCmd, sdr := Config.cmdCol r.lx.toNat, tc := true, phase := .busy,
            engine := s.engine.drop 2,
            wave := s.wave ++ (envelope .cmd (Config.cmdBank (pixBank r.ly.toNat)) ++
              envelope .cmd (Config.cmdCol r.lx.toNat)),
            hist := s.hist ++ [.bus .cmd (Config.cmdBank (pixBank r.ly.toNat)), .bus .cmd (Config.cmdCol r.lx.toNat)] } hb
          (State.promptFor_drop (n := 2)
            (by rw [show 2 + 2 * (pixelsOf trace).length = 2 * ((pixelsOf trace).length + 1) by ring]; exact he) rfl)
        refine ⟨t, ht, ?_, ?_, ?_, ?_, ?_, ?_⟩
        · rw [hl.hist]
          simp [pixBank]
        · rw [hl.wave]
          simp [pixBank]
        · rw [hl.cur, ← hi]
          simp only [List.getLast?_cons, pixIndex]
          cases (pixelsOf trace).getLast? <;> simp
        · intro a b hb
          rw [hl.fb a b hb]
          have here : ∀ u : State, u.fb = s.fb.set i (s.fbByte i ||| pixMask r.ly.toNat) →
              u.fbByte a = if a = i then s.fbByte i ||| pixMask r.ly.toNat else s.fbByte a := fun u hu => by
            rw [← State.fbByte_set s i a]
            exact State.fbByte_congr hu a
          rw [here _ rfl]
          by_cases ha : a = i
          · rw [if_pos ha, ha, ← hi]
            simp only [BitVec.getLsbD_or, pixMask_getLsbD _ _ hb, pixIndex, List.any_cons, Config.bankH, Config.cols,
              decide_true, Bool.true_and, Bool.or_assoc]
          · rw [← hi] at ha
            have : decide (a = r.lx.toNat + r.ly.toNat / 8 * 84) = false := by simpa [pixIndex] using ha
            simp [hi ▸ ha, this]
        · rw [hl.lines, List.getLast?_cons]
          cases (pixelsOf trace).getLast? <;> simp
        · refine ⟨hl.frame.1, hl.frame.2.1, ?_, hl.frame.2.2.2⟩
          rw [hl.frame.2.2.1]
          simp
          congr 1
          ring
      · exact hv
      · exact hb
      · exact State.promptFor_le he (by omega)
    · rename_i hv
      rw [if_neg hv, drawPixOps_invalid (by simpa using hv)]
      obtain ⟨t, ht, hl⟩ := ih { s with line := r } hb he
      exact ⟨t, ht, hl.hist, hl.wave, hl.cur, hl.fb, hl.lines, hl.frame⟩

/-- Plotting with no point on the display: only the working registers change. -/
theorem runOps_plotNone (opc : Byte) (rest : List Op) : ∀ (trace : List LineRegs) (s : State), pixelsOf trace = [] →
    ∃ r, runOps opc (trace.flatMap plotOps ++ rest) s = runOps opc rest { s with line := r } := by
  intro trace
  induction trace with
  | nil => exact fun s _ => ⟨s.line, rfl⟩
  | cons r trace ih =>
    intro s h
    rw [pixelsOf_cons] at h
    split at h
    · cases h
    · rename_i hv
      simp only [List.flatMap_cons, plotOps, List.cons_append, List.append_assoc]
      rw [runOps_cons_ok rfl, drawPixOps_invalid (by simpa using hv)]
      exact ih { s with line := r } h

end Sys2Proof.Machine
end

