-- ==== Sys2Proof/Laws/Hang.lean ====
section
/-! SUPPORT. A Send whose transfer never completes (R156): what it leaves, and that it is left for ever. -/

namespace Sys2Proof.Machine

/-- A dead Send at the head of the actions. -/
theorem runOps_send_dead {s : State} (opc : Byte) (k : Kind) (b : Byte) (rest : List Op) {later : List (Option Nat)}
    (hb : s.busReady = true) (he : s.engine = none :: later) :
    runOps opc (.send k b :: rest) s = .next ((s.sendStart k b).hold opc k b rest) :=
  runOps_cons_held (sendByte_dead opc k b hb he)

/-- A step of a block held by a dead Send leaves it as it is. -/
theorem step_held_dead {s : State} (opc : Byte) (k : Kind) (b : Byte) (rest : List Op) {later : List (Option Nat)}
    (hf : s.fault = none) (hr : s.refused = false) (he : s.engine = none :: later) :
    step ((s.sendStart k b).hold opc k b rest) = .next ((s.sendStart k b).hold opc k b rest) := by
  simp [step, hf, hr, resume, awaitTc, engineStep, engineAnswer, State.hold, he]

/-- A line with a dead Send at its first point on the display. -/
theorem runOps_plot_dead (opc : Byte) (rest : List Op) {later : List (Option Nat)} {q : Nat × Nat} :
    ∀ (trace : List LineRegs) (s : State), s.busReady = true → s.engine = none :: later →
      (pixelsOf trace).head? = some q → ∃ r rest', runOps opc (trace.flatMap plotOps ++ rest) s =
        .next ((State.sendStart { s with line := r } .cmd (Config.cmdBank (q.1 / 8))).hold opc .cmd
          (Config.cmdBank (q.1 / 8)) rest') := by
  intro trace
  induction trace with
  | nil => exact fun s _ _ h => absurd h (by simp [pixelsOf])
  | cons r trace ih =>
    intro s hb he h
    rw [pixelsOf_cons] at h
    simp only [List.flatMap_cons, plotOps, List.cons_append, List.append_assoc]
    rw [runOps_cons_ok rfl]
    split at h
    · rename_i hv
      simp only [List.head?_cons, Option.some.injEq] at h
      subst h
      simp only [drawPixOps, pixPosOps, hv, if_true, posCmds, List.cons_append]
      exact ⟨r, _, runOps_send_dead (s := { s with line := r }) opc _ _ _ hb he⟩
    · rename_i hv
      rw [drawPixOps_invalid (by simpa using hv)]
      obtain ⟨r', rest', h'⟩ := ih { s with line := r } hb he h
      exact ⟨r', rest', h'⟩

end Sys2Proof.Machine
end

