-- ==== Sys2Proof/Laws/Invariant.lean ====
section
/-! SUPPORT. The invariant through a request, a poll and a step, and how a run of safe actions ends. -/

namespace Sys2Proof.Machine

/-- An idle block that meets the invariant holds no request. -/
theorem idle_pending {s : State} (h : s.Inv) (hi : s.phase = .idle) : s.pending = none := by
  rcases Option.eq_none_or_eq_some s.pending with hp | ⟨p, hp⟩
  · exact hp
  · have := (h.waiting p hp).phase; rw [hi] at this; cases this

/-- A poll of a held request answers a next state that meets the invariant. -/
theorem resume_inv {s : State} {p : Pending} (h : s.Inv) (hp : s.pending = some p) :
    ∃ t, resume p s = .next t ∧ t.Inv := by
  have hw := h.waiting p hp
  unfold resume
  rcases awaitTc_waiting p.kind p.byte (s := { s with pending := none }) hw.phase hw.tc with ⟨e, ha⟩ | ⟨e, ha⟩ <;>
    simp only [ha]
  · refine runOps_inv _ _ true _ hw.rest (fun _ => hw.busReady)
      ⟨h.fbWf, h.curRange, h.fiRange, h.initReady, ?_, rfl, ?_, rfl, hw.noFault, rfl⟩
    · simp [List.countP_append, Event.isRsp, h.riCounts]
    · rw [State.frame_append hw.frame rfl]
      simp [hw.dc, hw.sdr]
  · refine ⟨_, rfl, h.fbWf, h.curRange, h.fiRange, h.initReady, h.riCounts, fun q hq => ?_,
      fun hq => absurd hq (by simp)⟩
    cases hq
    exact ⟨hw.phase, hw.sceN, hw.dc, hw.sdr, rfl, hw.busReady, hw.noFault, hw.frame, hw.rest⟩

/-- Every request, from a state with none held and no fault, answers a next state that meets the invariant. -/
theorem exec_inv {s : State} (h : s.Inv) (hp : s.pending = none) (hf : s.fault = none) (i : Instr) :
    ∃ t, exec i s = .next t ∧ t.Inv := by
  rcases exec_cases i s with ⟨_, _, he⟩ | he
  · exact ⟨_, he, (h.begin hp hf).raised _⟩
  · rw [he]; exact runOps_inv _ _ false _ (opsSafe_requestOps _ _) (by simp) (h.begin hp hf)

/-- The words the host has still to present are free in the invariant. -/
theorem inv_req {s : State} (h : s.Inv) (later : List ReqWord) :
    State.Inv { s with req := later } :=
  ⟨h.1, h.2, h.3, h.4, h.5, fun p hp => let w := h.6 p hp; ⟨w.1, w.2, w.3, w.4, w.5, w.6, w.7, w.8, w.9⟩,
    fun hp => ⟨(h.7 hp).1, (h.7 hp).2, (h.7 hp).3⟩⟩

/-- A run of safe actions ends with its one response, or without any. -/
theorem runOps_end (opc : Byte) : ∀ (ops : List Op) (sent : Bool) (s t : State),
    opsSafe sent s.fi ops = true → s.fault = none → runOps opc ops s = .next t →
    (t.ri = s.ri + 1 ∧ t.phase = .idle ∧ t.fault = none ∧ ∃ r, t.hist.getLast? = some (.rsp r)) ∨ t.ri = s.ri := by
  intro ops
  induction ops with
  | nil => intro sent s t h; simp [opsSafe] at h
  | cons op rest ih =>
    intro sent s t hs hf h
    by_cases hop : ∃ r, op = .respond r
    · obtain ⟨r, rfl⟩ := hop
      simp only [opsSafe, List.isEmpty_iff] at hs
      subst hs
      cases h
      left; exact ⟨rfl, rfl, hf, r, by simp⟩
    · have nr : ∀ u, (doOp opc op s).gives u → u.ri = s.ri := fun u hu => by
        rcases (doOp_frame hu).ri with h | h; exact h; exact absurd h hop
      cases hd : doOp opc op s with
      | ok u =>
        rw [runOps_cons_ok hd] at h
        have hu := nr u (.inl hd)
        have : ∃ sent', opsSafe sent' u.fi rest = true ∧ u.fault = none := by
          have ff : u.fault = none := by
            cases op with
            | send k b =>
              rcases sendByte_cases opc k b s with ⟨_, hh⟩ | ⟨_, e, hh⟩ | ⟨_, e, hh⟩ <;>
                rw [show doOp opc (.send k b) s = _ from hh] at hd <;> cases hd
              exact hf
            | sendFb =>
              simp only [doOp] at hd
              split at hd
              · rename_i b _
                rcases sendByte_cases opc .data b s with ⟨_, hh⟩ | ⟨_, e, hh⟩ | ⟨_, e, hh⟩ <;> rw [hh] at hd <;> cases hd
                exact hf
              · cases hd
            | _ =>
              rcases (doOp_frame (.inl hd)).lines with h | h | h
              · exact h.2.2.2.2.2.trans hf
              · simp at h
              · simp at h
          cases op with
          | send k b =>
            rcases sendByte_cases opc k b s with ⟨_, hh⟩ | ⟨_, e, hh⟩ | ⟨_, e, hh⟩ <;>
                rw [show doOp opc (.send k b) s = _ from hh] at hd <;> cases hd
            exact ⟨true, hs, ff⟩
          | sendFb =>
            simp only [opsSafe, Bool.and_eq_true, decide_eq_true_eq] at hs
            have := (doOp_frame (.inl hd)).fi
            simp at this
            exact ⟨true, by rw [this]; exact hs.2, ff⟩
          | setFi n =>
            simp only [opsSafe, Bool.and_eq_true] at hs
            cases hd; exact ⟨sent, hs.2, ff⟩
          | incFi =>
            simp only [opsSafe, Bool.and_eq_true] at hs
            cases hd; exact ⟨sent, hs.2, ff⟩
          | respond r => exact absurd ⟨r, rfl⟩ hop
          | memWrite i v =>
            simp only [opsSafe, Bool.and_eq_true] at hs
            have := (doOp_frame (.inl hd)).fi
            simp at this
            exact ⟨sent, by rw [this]; exact hs.2, ff⟩
          | orAtCur m =>
            have := (doOp_frame (.inl hd)).fi
            simp at this
            exact ⟨sent, by rw [this]; exact hs, ff⟩
          | setCur m =>
            simp only [opsSafe, Bool.and_eq_true] at hs
            cases hd; exact ⟨sent, hs.2, ff⟩
          | setInitDone =>
            simp only [opsSafe, Bool.and_eq_true] at hs
            cases hd; exact ⟨sent, hs.2, ff⟩
          | busConfig => cases hd; exact ⟨true, hs, ff⟩
          | _ => cases hd; exact ⟨sent, hs, ff⟩
        obtain ⟨sent', h1, h2⟩ := this
        have := ih sent' u t h1 h2 h
        rw [hu] at this; exact this
      | held k b u => rw [runOps_cons_held hd] at h; cases h; exact .inr (nr u (.inr (.inl ⟨_, _, hd⟩)))
      | raised u => rw [runOps_cons_raised hd] at h; cases h; exact .inr (nr _ (.inr (.inr hd)))
      | badIndex i => simp [runOps, hd] at h

/-- What is left of a request that has sent writes no byte of `FB` by its index. -/
theorem safe_noMemWrite : ∀ (ops : List Op) (fi : Nat), opsSafe true fi ops = true →
    ∀ i v, .memWrite i v ∉ ops := by
  intro ops
  induction ops with
  | nil => intro _ _ _ _; simp
  | cons op rest ih =>
    intro fi h i v hm
    rcases List.mem_cons.mp hm with rfl | hm2
    · simp [opsSafe] at h
    · cases op
      case respond => simp only [opsSafe, List.isEmpty_iff] at h; subst h; simp at hm2
      all_goals
        simp only [opsSafe, Bool.and_eq_true] at h
        first | exact ih _ h i v hm2 | exact ih _ h.2 i v hm2

/-- With the bus configured no action records a fault (R153). -/
theorem runOps_noFault (opc : Byte) : ∀ (ops : List Op) (s t : State), s.busReady = true → s.fault = none →
    runOps opc ops s = .next t → t.fault = none := by
  intro ops
  induction ops with
  | nil => intro s t _ hf h; cases h; exact hf
  | cons op rest ih =>
    intro s t hb hf h
    have key : ∀ u, (doOp opc op s).gives u → u.busReady = true ∧ u.fault = none := by
      intro u hu
      have hfr := doOp_frame hu
      refine ⟨?_, ?_⟩
      · rcases hfr.busReady with h | h
        · exact h.trans hb
        · exact h.2
      have ofsend : ∀ k b, (sendByte opc k b s).gives u → u.fault = none := by
        intro k b hg
        rcases sendByte_cases opc k b s with ⟨h', _⟩ | ⟨_, e, hs⟩ | ⟨_, e, hs⟩
        · rw [hb] at h'; cases h'
        all_goals
          rw [hs] at hg
          rcases hg with h | ⟨_, _, h⟩ | h <;> cases h
          exact hf
      rcases hfr.lines with h | ⟨k, b, rfl⟩ | rfl
      · exact h.2.2.2.2.2.trans hf
      · exact ofsend k b hu
      · simp only [doOp] at hu
        split at hu
        · exact ofsend _ _ hu
        · rcases hu with h | ⟨_, _, h⟩ | h <;> cases h
    cases hd : doOp opc op s with
    | ok u => rw [runOps_cons_ok hd] at h; exact ih _ _ (key u (.inl hd)).1 (key u (.inl hd)).2 h
    | held k b u => rw [runOps_cons_held hd] at h; cases h; exact (key u (.inr (.inl ⟨_, _, hd⟩))).2
    | raised u => rw [runOps_cons_raised hd] at h; cases h; exact (key _ (.inr (.inr hd))).2
    | badIndex i => simp [runOps, hd] at h

end Sys2Proof.Machine
end

