-- ==== Sys2Proof/Laws/PerInstr.lean ====
section
/-! SUPPORT. One lemma per request on its encoding: the word of a request carries its own opcode, one of
the eight of R73. -/

namespace Sys2Proof.Laws.OpcodeField

/-- The word of `i` has the opcode of `i`, which is one of the eight of R73. -/
def Statement (i : Instr) : Prop := (encode i).opc = i.opcode ∧ 1 ≤ i.opcode.toNat ∧ i.opcode.toNat ≤ 8

theorem send (kind : Kind) (byte : Byte) : Statement (.send kind byte) := ⟨pack_opc _ _ _ _ _, by simp [Instr.opcode], by simp [Instr.opcode]⟩

theorem init : Statement .init := ⟨pack_opc _ _ _ _ _, by simp [Instr.opcode], by simp [Instr.opcode]⟩

theorem clear : Statement .clear := ⟨pack_opc _ _ _ _ _, by simp [Instr.opcode], by simp [Instr.opcode]⟩

theorem flush : Statement .flush := ⟨pack_opc _ _ _ _ _, by simp [Instr.opcode], by simp [Instr.opcode]⟩

theorem settextpos (row col : Nat) : Statement (.settextpos row col) :=
  ⟨pack_opc _ _ _ _ _, by simp [Instr.opcode], by simp [Instr.opcode]⟩

theorem setpixpos (x y : Nat) : Statement (.setpixpos x y) := ⟨pack_opc _ _ _ _ _, by simp [Instr.opcode], by simp [Instr.opcode]⟩

theorem drawpixel (x y : Nat) : Statement (.drawpixel x y) := ⟨pack_opc _ _ _ _ _, by simp [Instr.opcode], by simp [Instr.opcode]⟩

theorem drawline (x1 x2 y1 y2 : Nat) : Statement (.drawline x1 x2 y1 y2) :=
  ⟨pack_opc _ _ _ _ _, by simp [Instr.opcode], by simp [Instr.opcode]⟩

end Sys2Proof.Laws.OpcodeField
end

