-- ==== Sys2Proof/Laws/Run.lean ====
section
/-! SUPPORT. Runs of the machine, one step at a time. -/

namespace Sys2Proof.Machine

theorem run_zero {M : Host.Core} (s : M.State) : M.run 0 s = .next s := rfl

theorem run_succ {M : Host.Core} {n : Nat} {s s' : M.State} (h : M.step s = .next s') :
    M.run (n + 1) s = M.run n s' := by
  simp [Host.Core.run, h]

/-- A run of `n + m` steps is a run of `n` and then one of `m`. -/
theorem run_add {M : Host.Core} {n m : Nat} {s t : M.State} (h : M.run n s = .next t) :
    M.run (n + m) s = M.run m t := by
  induction n generalizing s with
  | zero =>
    simp only [Host.Core.run, Host.Outcome.next.injEq] at h
    rw [Nat.zero_add, h]
  | succ n ih =>
    rw [Nat.add_right_comm]
    cases hs : M.step s with
    | next u =>
      rw [run_succ hs] at h ⊢
      exact ih h
    | fault r => simp [Host.Core.run, hs] at h
    | refused r => simp [Host.Core.run, hs] at h

end Sys2Proof.Machine
end

