-- ==== Sys2Proof/Tests/Slice0.lean ====
section
/-! SUPPORT. Small tests, their results taken from the spec's vectors (95_test_vectors.md) and encodings
(30_encoding.md), and a witness for the hypotheses of each statement. -/

namespace Sys2Proof.Tests

open Sys2Proof Sys2Proof.Machine

/-! ### Ill-formed requests are refused -/

theorem test_illformed_row : (Instr.settextpos 256 0).wellFormed = false := by decide
theorem test_illformed_col : (Instr.settextpos 0 256).wellFormed = false := by decide
theorem test_illformed_setpixpos_x : (Instr.setpixpos 256 0).wellFormed = false := by decide
theorem test_illformed_setpixpos_y : (Instr.setpixpos 0 256).wellFormed = false := by decide
theorem test_illformed_drawpixel_x : (Instr.drawpixel 256 0).wellFormed = false := by decide
theorem test_illformed_drawpixel_y : (Instr.drawpixel 0 256).wellFormed = false := by decide
theorem test_illformed_x1 : (Instr.drawline 256 0 0 0).wellFormed = false := by decide
theorem test_illformed_x2 : (Instr.drawline 0 256 0 0).wellFormed = false := by decide
theorem test_illformed_y1 : (Instr.drawline 0 0 256 0).wellFormed = false := by decide
theorem test_illformed_y2 : (Instr.drawline 0 0 0 256).wellFormed = false := by decide
theorem test_wellformed_largest : (Instr.drawline 255 255 255 255).wellFormed = true := by decide
theorem test_illformed_does_not_assemble : (AsmLine.line 0 0 256 1).assemble = none := by decide

/-! ### Words of the spec's encoding (R71, R73; V2.1-V2.19) -/

/-- `00000001 | 00000001 | bbbbbbbb | 0 | 0`, format FS, V2.2. -/
theorem test_decode_send : decode 0x0101FF0000 = .ok (.send .data 0xFF) := by decide
theorem test_decode_init : decode 0x0200000000 = .ok .init := by decide
theorem test_decode_clear : decode 0x0300000000 = .ok .clear := by decide
theorem test_decode_flush : decode 0x0400000000 = .ok .flush := by decide
theorem test_decode_settextpos : decode 0x05050D0000 = .ok (.settextpos 5 13) := by decide
theorem test_decode_setpixpos : decode 0x062F530000 = .ok (.setpixpos 47 83) := by decide
theorem test_decode_drawpixel : decode 0x07140A0000 = .ok (.drawpixel 20 10) := by decide
/-- Format F4: A, B, C, D are `x1, x2, y1, y2`. -/
theorem test_decode_drawline : decode 0x0801020304 = .ok (.drawline 1 2 3 4) := by decide
/-- V2.11: an operand out of range decodes. -/
theorem test_decode_large : decode 0x05FFFF0000 = .ok (.settextpos 255 255) := by decide
/-- V2.3. -/
theorem test_refuse_kind : decode 0x0102000000 = .error (.noSuchKind 2) := by decide
/-- V2.4. -/
theorem test_refuse_send_c : decode 0x0100000100 = .error (.reservedOperandBits 0x0100000100) := by decide
/-- V2.12. -/
theorem test_refuse_settextpos_d : decode 0x05000000FF = .error (.reservedOperandBits 0x05000000FF) := by decide
/-- V2.17, V2.18, V2.19. -/
theorem test_refuse_opcodes : decode 0x0000000000 = .error (.reservedOpcode 0x00) ∧
    decode 0x0900000000 = .error (.reservedOpcode 0x09) ∧
    decode 0xFF00000000 = .error (.reservedOpcode 0xFF) := by decide
theorem test_encode_drawline : encode (.drawline 10 10 20 20) = 0x080A0A1414 := by decide
theorem test_table_word : decodeTableWord 40 0x0607000000 = some (.setpixpos 7 0) := by decide

/-- R78: text, its literals and its errors. -/
theorem test_text_hexadecimal : assembleText "SEND DATA, 0xFF".toList = .ok (some 0x0101FF0000) := by decide
theorem test_text_wrong_operands : assembleText "DRAWPIXEL 1".toList = .error .noSuchForm := by decide

/-! ### One request on a small state -/

/-- A block after INIT (the 'ready' of the vectors), its event list left empty. -/
def ready : State := { State.reset with rstN := true, busReady := true, initDone := true, ri := 0 }

/-- The state after a request. -/
def after (i : Instr) (s : State) : State :=
  match exec i s with
  | .next t => t
  | _ => State.reset

/-- V2.20. -/
theorem test_send : (after (.send .data 0xA5) ready).hist = [.bus .data 0xA5, .rsp .done] ∧
    (after (.send .data 0xA5) ready).sdr = 0xA5 ∧ (after (.send .data 0xA5) ready).tc = true := by decide

/-- V2.23. -/
theorem test_send_hangs :
    (after (.send .cmd 0x21) { ready with engine := [none] }).phase = .waitTc ∧
    (after (.send .cmd 0x21) { ready with engine := [none] }).sceN = false ∧
    (after (.send .cmd 0x21) { ready with engine := [none] }).hist = [] := by decide

/-- R92, in an order written out from the rule: two bytes, two envelopes (V2.24 shows two bytes of one value). -/
theorem test_envelopes : (after (.settextpos 1 2) ready).wave =
    [.sceN false, .dc Config.dcCmd, .sdr (Config.cmdBank 1), .tcDone, .sceN true,
      .sceN false, .dc Config.dcCmd, .sdr (Config.cmdCol 12), .tcDone, .sceN true] := by rfl

/-- V2.28. -/
theorem test_init_hangs : (after .init { State.reset with engine := [none] }).phase = .waitTc ∧
    (after .init { State.reset with engine := [none] }).hist =
      [.rst false, .delay .lo, .rst true, .delay .hi, .busCfg] ∧
    (after .init { State.reset with engine := [none] }).initDone = false := by decide

/-- V2.25. -/
theorem test_init : (after .init State.reset).initDone = true ∧ (after .init State.reset).busReady = true ∧
    (after .init State.reset).rstN = true ∧ (after .init State.reset).hist.length = 12 := by decide

/-- V2.26. -/
theorem test_init_again : (after .init ready).fault = some (.reinit 0) ∧ (after .init ready).hist = [] := by decide

/-- V2.48: not ready, `CUR = 178`. -/
theorem test_clear : (after .clear { State.reset with fb := [(0, 0xFF)], cur := 178 }).fbByte 0 = 0 ∧
    (after .clear { State.reset with fb := [(0, 0xFF)], cur := 178 }).cur = 178 ∧
    (after .clear { State.reset with fb := [(0, 0xFF)], cur := 178 }).hist = [.rsp .done] := by decide +kernel

/-- V2.29a. -/
theorem test_flush_not_ready : (after .flush State.reset).hist = [] ∧ (after .flush State.reset).ri = 0 ∧
    (after .flush State.reset).fault.isSome = true := by decide

/-- R107: the first data byte is `FB[0]`, here on an engine that stops at the transfer after it. -/
theorem test_flush_first_byte :
    (after .flush { ready with fb := [(0, 0x01)], engine := [some 0, some 0, some 0, none] }).hist.getLast? =
      some (.bus .data 0x01) ∧
    (after .flush { ready with fb := [(0, 0x01)], engine := [some 0, some 0, some 0, none] }).fi = 1 := by decide

/-- V2.32. -/
theorem test_settextpos : (after (.settextpos 5 13) ready).cur = 498 ∧
    (after (.settextpos 5 13) ready).hist.length = 3 := by decide

/-- V2.38: the range check comes before the fault. -/
theorem test_settextpos_out_of_range :
    (after (.settextpos 6 0) { State.reset with cur := 96 }).hist = [.rsp .oor] ∧
    (after (.settextpos 6 0) { State.reset with cur := 96 }).cur = 96 := by decide

/-- V2.43. -/
theorem test_setpixpos : (after (.setpixpos 20 10) ready).cur = 178 := by decide

/-- V2.45. -/
theorem test_setpixpos_out_of_range : (after (.setpixpos 48 0) ready).hist = [.rsp .oor] := by decide

/-- V2.56. -/
theorem test_drawpixel : (after (.drawpixel 0 0) { ready with fb := [(0, 0xFE)] }).fbByte 0 = 0xFF := by decide

/-- V2.51: `FB[178]` from 0x10 to 0x30. -/
theorem test_drawpixel_bit : (after (.drawpixel 21 10) { ready with fb := [(178, 0x10)] }).fbByte 178 = 0x30 := by
  decide

/-- V2.78, the first and the last pixel on the display. -/
theorem test_drawline :
    (after (.drawline 80 90 40 50) { ready with fb := [(500, 0), (503, 0)] }).fbByte 500 = 0x01 ∧
    (after (.drawline 80 90 40 50) { ready with fb := [(500, 0), (503, 0)] }).fbByte 503 = 0x08 ∧
    (after (.drawline 80 90 40 50) { ready with fb := [(500, 0), (503, 0)] }).cur = 503 := by decide

/-- V2.81: the fault comes at the second point, the first being off the display. -/
theorem test_drawline_not_ready : (after (.drawline 84 0 0 0) State.reset).line.lx = 83 ∧
    (after (.drawline 84 0 0 0) State.reset).fault.isSome = true ∧
    (after (.drawline 84 0 0 0) State.reset).hist = [] := by decide

/-! ### The line-point generator: points and error terms of V2.60-V2.76 -/

theorem test_line_shallow : linePoints 0 5 0 2 = [(0, 0), (1, 0), (2, 1), (3, 1), (4, 2), (5, 2)] ∧
    (lineTrace 0 5 0 2).map LineRegs.ld = [-1, 3, -3, 1, -5, -1] := by decide

theorem test_line_shallow_back :
    linePoints 7 0 3 0 = [(7, 3), (6, 3), (5, 2), (4, 2), (3, 1), (2, 1), (1, 0), (0, 0)] ∧
    (lineTrace 7 0 3 0).map LineRegs.ld = [-1, 5, -3, 3, -5, 1, -7, -1] := by decide

theorem test_line_steep : linePoints 0 3 5 0 = [(0, 5), (1, 4), (1, 3), (2, 2), (2, 1), (3, 0)] ∧
    (lineTrace 0 3 5 0).map LineRegs.ld = [-1, 3, -3, 1, -5, -1] := by decide

theorem test_line_ties : linePoints 4 0 0 2 = [(4, 0), (3, 1), (2, 1), (1, 2), (0, 2)] ∧
    (lineTrace 4 0 0 2).map LineRegs.ld = [0, -4, 0, -4, 0] := by decide

theorem test_line_degenerate : linePoints 10 10 20 20 = [(10, 20)] := by decide

/-! ### The step -/

/-- V2.1 through the host's port. -/
theorem test_step_fetches : step (State.reset.withFetchWord 40 0x0100210000) = exec (.send .cmd 0x21) State.reset := by
  rfl

/-- V2.82: a word outside the encoding is refused before INIT's own fault. -/
theorem test_step_refuses :
    step (ready.withFetchWord 40 0x0200000001) = .next { ready with refused := true } := by rfl

/-! ### Witnesses: a concrete state and operands that meet the hypotheses of each statement -/

/-- A ready block with words to come and a given engine. -/
def readyWith (words : List ReqWord) (engine : List (Option Nat)) : State :=
  { ready with req := words, engine := engine }

/-- A block before INIT, its cursor at 96, with words to come. -/
def notReadyWith (words : List ReqWord) : State := { State.reset with cur := 96, req := words }

/-- A SEND held for ever, as V2.23 leaves it. -/
def heldForEver : State :=
  { ready with
    phase := .waitTc, sceN := false, dc := Config.dcCmd, sdr := 0x21, engine := [none],
    wave := [.sceN false, .dc Config.dcCmd, .sdr 0x21],
    pending := some ⟨0x01, .cmd, 0x21, [.respond .done]⟩ }

theorem readyWith_inv (words : List ReqWord) (engine : List (Option Nat)) : (readyWith words engine).Inv :=
  ⟨rfl, Nat.zero_lt_succ _, Nat.zero_le _, fun _ => rfl, rfl, fun _ h => (nomatch h), fun _ => ⟨rfl, rfl, .inl rfl⟩⟩

theorem notReadyWith_inv (words : List ReqWord) : (notReadyWith words).Inv :=
  ⟨rfl, Nat.lt_of_lt_of_le (by decide : 96 < 97) (by decide : 97 ≤ 504), Nat.zero_le _,
    fun h => (nomatch h), rfl, fun _ h => (nomatch h), fun _ => ⟨rfl, rfl, .inl rfl⟩⟩

theorem heldForEver_inv : heldForEver.Inv :=
  ⟨rfl, by decide, by decide, fun _ => rfl, rfl,
    fun _ h => by cases h; exact ⟨rfl, rfl, rfl, rfl, rfl, rfl, rfl, rfl, rfl⟩, fun h => (nomatch h)⟩

theorem witness_decode_of_encode : (Instr.drawline 255 0 0 255).wellFormed = true := by decide

theorem witness_encode_of_decode : ∃ w i, decode w = .ok i := ⟨0x08FFFFFFFF, .drawline 255 255 255 255, by decide⟩

/-- One word for each way to be illegal, at the ends of its range, and the legal words beside them. -/
theorem witness_illegal_words :
    ((∃ e, decode 0x0000000000 = .error e) ∧ (∃ e, decode 0x0900000000 = .error e)) ∧
    (∃ e, decode 0x0201000000 = .error e) ∧ (∃ e, decode 0x0400000001 = .error e) ∧
    (∃ e, decode 0x0700000100 = .error e) ∧ (∃ e, decode 0x0102000000 = .error e) ∧
    (∃ i, decode 0x08FFFFFFFF = .ok i) ∧ (∃ i, decode 0x0101FF0000 = .ok i) :=
  ⟨⟨⟨_, rfl⟩, ⟨_, rfl⟩⟩, ⟨_, rfl⟩, ⟨_, rfl⟩, ⟨_, rfl⟩, ⟨_, rfl⟩, ⟨_, rfl⟩, ⟨_, rfl⟩⟩

/-- Operands at both ends for each form with operands. -/
theorem witness_operand_fields : (decode 0x0100FF0000 = .ok (.send .cmd 0xFF) ∧ decode 0x0101000000 = .ok (.send .data 0)) ∧
    decode 0x0500FF0000 = .ok (.settextpos 0 255) ∧ decode 0x06FF000000 = .ok (.setpixpos 255 0) ∧
    decode 0x0700FF0000 = .ok (.drawpixel 0 255) ∧ decode 0x08FF00FF00 = .ok (.drawline 255 0 255 0) := by decide

/-- A step that executes a request, from a state that meets the invariant. -/
theorem witness_step : ∃ s t, s.Inv ∧ step s = .next t ∧ t.ri = s.ri + 1 :=
  ⟨readyWith [0x0101A50000] [], _, readyWith_inv _ _, rfl, rfl⟩

theorem witness_step_runs : (readyWith [0x0101A50000] []).reqReady ∧
    (readyWith [0x0101A50000] []).req = 0x0101A50000 :: [] ∧ decode 0x0101A50000 = .ok (.send .data 0xA5) := by decide

theorem witness_illegal_word : (readyWith [0x0900000000] []).reqReady ∧
    (readyWith [0x0900000000] []).req = 0x0900000000 :: [] ∧
    decode 0x0900000000 = .error (.reservedOpcode 0x09) := by decide

theorem witness_fault_is_final :
    ({ ready with fault := some (.reinit 1) } : State).fault = some (.reinit 1) := by decide

/-- Both ends of a step at the port: the word is taken, and a poll takes none. -/
theorem witness_words_taken : (∃ t, step (readyWith [0x0101A50000, 0x0300000000] []) = .next t ∧ t.req = [0x0300000000]) ∧
    (∃ t, step heldForEver = .next t) :=
  ⟨⟨_, rfl, rfl⟩, ⟨_, rfl⟩⟩

theorem witness_idle : (readyWith [] []).reqReady ∧ (readyWith [] []).req = [] := by decide

/-- The hypotheses of SEND, FLUSH, SETTEXTPOS, SETPIXPOS, DRAWPIXEL and CLEAR-then-FLUSH: the bus configured and the
transfers prompt, the last listed transfer being the last needed. -/
theorem witness_prompt : (readyWith [] [some 0, none]).busReady = true ∧
    (readyWith [] [some 0, none]).promptFor 1 = true ∧ (readyWith [] [some 0, some 0, none]).promptFor 2 = true ∧
    (readyWith [] []).promptFor 506 = true := by decide

theorem witness_init : (notReadyWith []).initDone = false ∧ (notReadyWith []).promptFor 6 = true := by decide

theorem witness_second_init : ready.initDone = true := by decide

/-- The cells and pixels at the ends of their ranges: SETTEXTPOS, SETPIXPOS and DRAWPIXEL in range. -/
theorem witness_in_range : (5 ≤ 5 ∧ 13 ≤ 13 ∧ 47 ≤ 47 ∧ 83 ≤ 83) ∧ validCell 5 13 = true ∧ validPix 47 83 = true ∧
    ready.busReady = true ∧ ready.promptFor 2 = true := by decide

/-- The first values out of range, one for each clause. -/
theorem witness_out_of_range : validCell 6 0 = false ∧ validCell 0 14 = false ∧ validPix 48 0 = false ∧
    validPix 0 84 = false := by decide

/-- A line half off the display, V2.78: 4 of its 11 points are on it. -/
theorem witness_draw_line : ready.busReady = true ∧
    plottedPixels 80 90 40 50 = [(40, 80), (41, 81), (42, 82), (43, 83)] ∧
    ready.promptFor (2 * (plottedPixels 80 90 40 50).length) = true := by decide

/-- V2.79. -/
theorem witness_off_screen : plottedPixels 100 110 100 100 = [] := by decide

/-- Each request that sends, before INIT, at the ends of its operands' ranges. -/
theorem witness_send_before_init : (notReadyWith []).busReady = false ∧
    (∃ t, exec (.send .data 0xFF) (notReadyWith []) = .next t ∧ t.fault = some (.busNotReady 0 0x01 .data 0xFF)) ∧
    (∃ t b, exec .flush (notReadyWith []) = .next t ∧ t.fault = some (.busNotReady 0 0x04 .cmd b)) ∧
    (∃ t b, exec (.settextpos 5 13) (notReadyWith []) = .next t ∧ t.fault = some (.busNotReady 0 0x05 .cmd b)) ∧
    (∃ t b, exec (.setpixpos 47 83) (notReadyWith []) = .next t ∧ t.fault = some (.busNotReady 0 0x06 .cmd b)) ∧
    (∃ t b, exec (.drawpixel 0 0) (notReadyWith []) = .next t ∧ t.fault = some (.busNotReady 0 0x07 .cmd b)) :=
  ⟨rfl, ⟨_, rfl, rfl⟩, ⟨_, _, rfl, rfl⟩, ⟨_, _, rfl, rfl⟩, ⟨_, _, rfl, rfl⟩, ⟨_, _, rfl, rfl⟩⟩

/-- V2.81. -/
theorem witness_line_before_init : (notReadyWith []).busReady = false ∧
    (plottedPixels 84 0 0 0).head? = some (0, 83) := by decide

/-- The state and the operands at the ends of their ranges, for every request that sends; INIT's state is the one
before INIT. -/
theorem witness_dead_engine : ((readyWith [] [none]).busReady = true ∧ (readyWith [] [none]).fault = none ∧
    (readyWith [] [none]).refused = false ∧ (readyWith [] [none]).engine = none :: []) ∧
    ({ notReadyWith [] with engine := [none] } : State).initDone = false ∧
    validCell 5 13 = true ∧ validPix 47 83 = true ∧ (plottedPixels 84 0 0 0).head? = some (0, 83) := by decide

theorem witness_hang : heldForEver.Inv ∧ heldForEver.refused = false ∧
    heldForEver.pending = some ⟨0x01, .cmd, 0x21, [.respond .done]⟩ ∧ heldForEver.engine = none :: [] :=
  ⟨heldForEver_inv, rfl, rfl, rfl⟩

/-- The frames: each request they name answers a next state. -/
theorem witness_frames : (∃ t, exec (.send .cmd 0x21) ready = .next t) ∧ (∃ t, exec .init (notReadyWith []) = .next t) ∧
    (∃ t, exec (.settextpos 5 13) ready = .next t) ∧ (∃ t, exec (.setpixpos 47 83) ready = .next t) ∧
    (∃ t, exec (.drawpixel 47 83) ready = .next t ∧ t.cur = 503) ∧
    (∃ t, exec (.drawline 80 90 40 50) ready = .next t ∧ t.cur = 503) ∧
    (∃ t, exec .flush { ready with engine := [none] } = .next t) :=
  ⟨⟨_, rfl⟩, ⟨_, rfl⟩, ⟨_, rfl⟩, ⟨_, rfl⟩, ⟨_, rfl, rfl⟩, ⟨_, rfl, rfl⟩, ⟨_, rfl⟩⟩

/-- The bytes outside the pixels of a line and of a pixel: 502 is outside, 503 and 500 are not. -/
theorem witness_stored_bytes : (∃ t, exec (.drawpixel 47 83) ready = .next t) ∧ validPix 47 83 = true ∧
    502 ≠ pixIndex 47 83 ∧ (∃ t, exec (.drawline 80 80 40 40) ready = .next t) ∧
    ∀ q ∈ plottedPixels 80 80 40 40, 502 ≠ pixIndex q.1 q.2 :=
  ⟨⟨_, rfl⟩, by decide, by decide, ⟨_, rfl⟩, by decide⟩

/-- The silent requests, one for each form. -/
theorem witness_silent : (∃ t, exec (.settextpos 6 0) (notReadyWith []) = .next t) ∧ validCell 6 0 = false ∧
    (∃ t, exec (.setpixpos 48 0) (notReadyWith []) = .next t) ∧ (∃ t, exec (.drawpixel 0 84) (notReadyWith []) = .next t) ∧
    validPix 48 0 = false ∧ validPix 0 84 = false ∧
    (∃ t, exec (.drawline 100 110 100 100) (notReadyWith []) = .next t) ∧ plottedPixels 100 110 100 100 = [] :=
  ⟨⟨_, rfl⟩, by decide, ⟨_, rfl⟩, ⟨_, rfl⟩, by decide, by decide, ⟨_, rfl⟩, by decide⟩

/-- The two ends of a step in `RequestIndexCountsResponses`: a response, and a poll without one. -/
theorem witness_request_index :
    (∃ t, (readyWith [0x0630000000] []).Inv ∧ step (readyWith [0x0630000000] []) = .next t ∧ t.ri = 1) ∧
    (∃ t, heldForEver.Inv ∧ step heldForEver = .next t ∧ t.ri = 0) :=
  ⟨⟨_, readyWith_inv _ _, rfl, rfl⟩, ⟨_, heldForEver_inv, rfl, rfl⟩⟩

/-- A step that does not execute CLEAR, with a lit bit. -/
theorem witness_pixels_stay : ∃ s t, s.Inv ∧ step s = .next t ∧
    (s.reqReady → ∀ w later, s.req = w :: later → decode w ≠ .ok .clear) ∧ (s.fbByte 0).getLsbD 1 = true :=
  ⟨{ readyWith [0x0700000000] [] with fb := [(0, 0xFE)] }, _,
    ⟨rfl, by decide, by decide, fun _ => rfl, rfl, fun _ h => (nomatch h), fun _ => ⟨rfl, rfl, .inl rfl⟩⟩, rfl,
    fun _ w later h => by cases h; decide, by decide⟩

/-- Both faults. -/
theorem witness_faults :
    (∃ t, (readyWith [0x0200000000] []).Inv ∧ step (readyWith [0x0200000000] []) = .next t ∧
      t.fault = some (.reinit 0)) ∧
    (∃ t, (notReadyWith [0x0101A50000]).Inv ∧ step (notReadyWith [0x0101A50000]) = .next t ∧
      t.fault = some (.busNotReady 0 0x01 .data 0xA5)) :=
  ⟨⟨_, readyWith_inv _ _, rfl, rfl⟩, ⟨_, notReadyWith_inv _, rfl, rfl⟩⟩

/-- A slow engine that completes its transfers: after 3 steps and at once. -/
theorem witness_engine_delays : (readyWith [0x0608000000] [some 3, some 0]).reqReady ∧
    (readyWith [0x0608000000] [some 3, some 0]).pending = none ∧
    (readyWith [0x0608000000] [some 3, some 0]).engineFair = true ∧
    ∃ t, step { readyWith [0x0608000000] [some 3, some 0] with engine := [] } = .next t ∧ t.cur = 84 :=
  ⟨by decide, rfl, by decide, _, rfl, rfl⟩

theorem witness_requests_end_well : (readyWith ([Instr.clear, .drawpixel 20 10].map encode) []).reqReady ∧
    (readyWith ([Instr.clear, .drawpixel 20 10].map encode) []).busReady = true ∧
    ∀ i ∈ [Instr.clear, .drawpixel 20 10], i.wellFormed = true ∧ i ≠ .init := by decide

/-- A point of a line, and its registers. -/
theorem witness_line_point : ((2 : Int), (1 : Int)) ∈ linePoints 0 2 0 1 ∧
    (⟨2, 1, 0, 1, 1, 2, 1⟩ : LineRegs) ∈ lineTrace 0 2 0 1 := by decide

/-- The four cases of a symmetric line: odd major delta, vertical, horizontal, diagonal. -/
theorem witness_symmetric_lines :
    max ((5 : Int) - 0).natAbs ((2 : Int) - 0).natAbs % 2 = 1 ∧ linePoints 5 0 2 0 = (linePoints 0 5 0 2).reverse ∧
    linePoints 5 5 4 0 = (linePoints 5 5 0 4).reverse ∧ linePoints 4 0 7 7 = (linePoints 0 4 7 7).reverse ∧
    linePoints 4 0 4 0 = (linePoints 0 4 0 4).reverse := by decide

end Sys2Proof.Tests
end

/-! PROOFS. The statements about the state (10_state.md): the invariant and what follows from it at every step, which
requests write which register, and how a list of requests ends. -/

namespace Sys2Proof

/-- A request with an encoding is what its word decodes to (R72, R73). -/
theorem decode_encode_of_wellFormed {i : Instr} (h : i.wellFormed = true) : decode (encode i) = .ok i := by
  rw [decode_eq]
  cases i with
  | send k b => cases k <;> simp [encode, decodeF, Instr.opcode, kindField, kindOfField]
  | init | clear | flush => simp [encode, decodeF, Instr.opcode]
  | settextpos a b | setpixpos a b | drawpixel a b =>
    simp only [Instr.wellFormed, isU8, Bool.and_eq_true, decide_eq_true_eq] at h
    simp [encode, decodeF, Instr.opcode, Nat.mod_eq_of_lt h.1, Nat.mod_eq_of_lt h.2]
  | drawline a b c d =>
    simp only [Instr.wellFormed, isU8, Bool.and_eq_true, decide_eq_true_eq] at h
    obtain ⟨⟨⟨ha, hb⟩, hc⟩, hd⟩ := h
    simp [encode, decodeF, Instr.opcode, Nat.mod_eq_of_lt ha, Nat.mod_eq_of_lt hb, Nat.mod_eq_of_lt hc,
      Nat.mod_eq_of_lt hd]

end Sys2Proof

namespace Sys2Proof.Machine

/-! ### The invariant at every step (R22, R24, R27, R34, R92) -/

/-- Refusing a word (R74) keeps the invariant: it leaves every field that the invariant speaks of. -/
theorem State.Inv.refused {s : State} (h : s.Inv) : State.Inv { s with refused := true } where
  fbWf := h.fbWf
  curRange := h.curRange
  fiRange := h.fiRange
  initReady := h.initReady
  riCounts := h.riCounts
  waiting p hp :=
    let w := h.waiting p hp
    ⟨w.phase, w.sceN, w.dc, w.sdr, w.tc, w.busReady, w.noFault, w.frame, w.rest⟩
  settled hp := ⟨(h.settled hp).sceN, (h.settled hp).frame, (h.settled hp).phase⟩

/-- Settles O10: each of the five things a step can do keeps the invariant. -/
theorem stepKeepsInvariant : Obligations.StepKeepsInvariant := by
  intro s t h hs
  obtain ⟨hf, -, hc⟩ := step_cases hs
  rcases hc with ⟨-, -, rfl⟩ | ⟨-, _, later, _, -, -, rfl⟩ | ⟨hi, _, later, i, -, -, he⟩ | ⟨-, p, hp, hr⟩ | ⟨-, -, rfl⟩
  case inl | inr.inr.inr.inr => exact h
  case inr.inl => exact (inv_req h later).refused
  case inr.inr.inl =>
    have hq := inv_req h later
    obtain ⟨u, hu, hinv⟩ := exec_inv hq (idle_pending hq hi) hf i
    cases hu.symm.trans he
    exact hinv
  case inr.inr.inr.inl =>
    obtain ⟨u, hu, hinv⟩ := resume_inv h hp
    cases hu.symm.trans hr
    exact hinv

/-! ### The envelopes (R92, R93) -/

/-- The lines of a state that meets the invariant: in an open Send, or after whole envelopes. -/
theorem State.Inv.framing {s : State} (h : s.Inv) :
    (s.phase = .waitTc ∧ s.sceN = false ∧ s.frame = some (.shifting s.dc s.sdr, busBytes s.hist)) ∨
    (s.phase ≠ .waitTc ∧ s.sceN = true ∧ s.frame = some (.between, busBytes s.hist)) := by
  rcases Option.eq_none_or_eq_some s.pending with hp | ⟨p, hp⟩
  · obtain ⟨hsce, hfr, hph⟩ := h.settled hp
    refine .inr ⟨fun hw => ?_, hsce, hfr⟩
    simp [hw] at hph
  · have w := h.waiting p hp
    exact .inl ⟨w.phase, w.sceN, w.frame⟩

/-- Settles O55: the invariant after the step says how the lines stand. -/
theorem everyByteHasItsEnvelope : Obligations.EveryByteHasItsEnvelope :=
  fun s t h hs => (stepKeepsInvariant s t h hs).framing

/-! ### What a request and a poll keep -/

/-- A part of the state that each action of a request keeps is kept by the request, as long as holding, beginning and
faulting keep it. -/
theorem exec_keeps {α : Type} (f : State → α) {i : Instr} {s t : State} (h : exec i s = .next t)
    (hop : ∀ op ∈ requestOps i, ∀ s t, OpFrame op s t → f t = f s)
    (hhold : ∀ opc (s : State) k b rest, f (s.hold opc k b rest) = f s := by intros; rfl)
    (hbegin : ∀ s : State, f s.begin = f s := by intros; rfl)
    (hfault : ∀ (s : State) r, f (s.raiseFault r) = f s := by intros; rfl) : f t = f s :=
  exec_rel (R := fun s t => f t = f s) (fun _ => rfl) (fun _ _ _ h h' => h'.trans h) hhold hbegin hfault hop h

theorem exec_refused {i : Instr} {s t : State} (h : exec i s = .next t) : t.refused = s.refused :=
  exec_keeps (·.refused) h fun _ _ _ _ hf => hf.refused

theorem exec_req {i : Instr} {s t : State} (h : exec i s = .next t) : t.req = s.req :=
  exec_keeps (·.req) h fun _ _ _ _ hf => hf.req

/-- A poll of a held request runs the rest of it from the end of its Send, or leaves it held. -/
theorem resume_cases {p : Pending} {s t : State} (h : resume p s = .next t) :
    (∃ u e w, runOps p.opc p.rest u = .next t ∧ u = { s with
      pending := none, phase := .busy, sceN := true, tc := true, engine := e, wave := s.wave ++ w,
      hist := s.hist ++ [.bus p.kind p.byte] }) ∨
    ∃ e, t = { s with tc := false, engine := e, pending := some p } := by
  unfold resume at h
  rcases awaitTc_cases p.kind p.byte { s with pending := none } with ⟨e, w, ha, -⟩ | ⟨e, ha⟩ <;> simp only [ha] at h
  · exact .inl ⟨_, e, _, h, rfl⟩
  · cases h
    exact .inr ⟨e, rfl⟩

theorem resume_refused {p : Pending} {s t : State} (h : resume p s = .next t) : t.refused = s.refused := by
  rcases resume_cases h with ⟨u, _, _, hr, hu⟩ | ⟨_, rfl⟩
  · have rest := runOps_rel (R := fun s t => t.refused = s.refused) (fun _ => rfl) (fun _ _ _ h h' => h'.trans h)
      (fun _ _ _ _ => rfl) p.rest (fun _ _ _ _ hg => (doOp_frame hg).refused) _ _ hr
    rw [rest, hu]
  · rfl

/-! ### The request index (R24) -/

/-- How a request or a poll ends: with its one response, counted by `RI` (R24), or with none. -/
def State.EndsAs (s t : State) : Prop :=
  (t.ri = s.ri + 1 ∧ t.phase = .idle ∧ t.fault = none ∧ ∃ r, t.hist.getLast? = some (.rsp r)) ∨ t.ri = s.ri

theorem exec_ends {i : Instr} {s t : State} (hf : s.fault = none) (h : exec i s = .next t) : s.EndsAs t := by
  rcases exec_cases i s with ⟨-, -, he⟩ | he <;> rw [he] at h
  · cases h
    exact .inr rfl
  · exact runOps_end _ _ false s.begin t (opsSafe_requestOps i _) hf h

theorem resume_ends {p : Pending} {s t : State} (hw : s.Waiting p) (h : resume p s = .next t) : s.EndsAs t := by
  rcases resume_cases h with ⟨u, _, _, hr, hu⟩ | ⟨_, rfl⟩
  · have rest := runOps_end p.opc p.rest true u t (by rw [hu]; exact hw.rest) (by rw [hu]; exact hw.noFault) hr
    rwa [hu] at rest
  · exact .inr rfl

/-- A step that counts a response is the end of a request, so it refuses nothing. -/
theorem step_ends {s t : State} (h : s.Inv) (hs : step s = .next t) :
    t.ri = s.ri ∨ (s.EndsAs t ∧ t.refused = false) := by
  obtain ⟨hf, hr, hc⟩ := step_cases hs
  rcases hc with ⟨-, -, rfl⟩ | ⟨-, _, _, _, -, -, rfl⟩ | ⟨-, _, later, _, -, -, he⟩ | ⟨-, p, hp, hp'⟩ | ⟨-, -, rfl⟩
  case inl | inr.inl | inr.inr.inr.inr => exact .inl rfl
  case inr.inr.inl => exact .inr ⟨exec_ends (s := { s with req := later }) hf he, (exec_refused he).trans hr⟩
  case inr.inr.inr.inl => exact .inr ⟨resume_ends (h.waiting p hp) hp', (resume_refused hp').trans hr⟩

/-- Settles O40: the end of the step gives `RI`, and the invariant before and after it gives the number of responses. -/
theorem requestIndexCountsResponses : Obligations.RequestIndexCountsResponses := by
  refine ⟨rfl, fun s t h hs => ?_⟩
  rw [(stepKeepsInvariant s t h hs).riCounts, h.riCounts]
  rcases step_ends h hs with hri | ⟨⟨hri, hph, hf, hrsp⟩ | hri, hr⟩
  · exact .inr ⟨hri, hri⟩
  · exact .inl ⟨hri, hph, hf, hr, hrsp, hri⟩
  · exact .inr ⟨hri, hri⟩

/-! ### The records only grow (R35, R92) -/

/-- `HIST` and the record of the line writes go on from those of `s`. -/
def State.Extends (s t : State) : Prop := s.hist <+: t.hist ∧ s.wave <+: t.wave

theorem State.Extends.refl (s : State) : s.Extends s := ⟨List.prefix_rfl, List.prefix_rfl⟩

theorem State.Extends.trans (s t u : State) (h : s.Extends t) (h' : t.Extends u) : s.Extends u :=
  ⟨h.1.trans h'.1, h.2.trans h'.2⟩

theorem OpFrame.extends {op : Op} {s t : State} (h : OpFrame op s t) : s.Extends t := by
  obtain ⟨es, hes⟩ := h.hist
  obtain ⟨w, hw⟩ := h.wave
  exact ⟨⟨es, hes.symm⟩, w, hw.symm⟩

theorem exec_extends {i : Instr} {s t : State} (h : exec i s = .next t) : s.Extends t :=
  exec_rel .refl .trans (fun _ s _ _ _ => .refl s) .refl (fun s _ => .refl s) (fun _ _ _ _ hf => hf.extends) h

theorem resume_extends {p : Pending} {s t : State} (h : resume p s = .next t) : s.Extends t := by
  rcases resume_cases h with ⟨u, _, _, hr, hu⟩ | ⟨_, rfl⟩
  · have sent : s.Extends u := hu ▸ ⟨List.prefix_append .., List.prefix_append ..⟩
    exact .trans s u t sent (runOps_rel .refl .trans (fun s _ _ _ => .refl s) p.rest
      (fun _ _ _ _ hg => (doOp_frame hg).extends) u t hr)
  · exact .refl s

theorem step_extends {s t : State} (hs : step s = .next t) : s.Extends t := by
  obtain ⟨-, -, hc⟩ := step_cases hs
  rcases hc with ⟨-, -, rfl⟩ | ⟨-, _, _, _, -, -, rfl⟩ | ⟨-, _, later, _, -, -, he⟩ | ⟨-, _, -, hr⟩ | ⟨-, -, rfl⟩
  case inl | inr.inr.inr.inr => exact .refl t
  case inr.inl => exact .refl s
  case inr.inr.inl => exact exec_extends (s := { s with req := later }) he
  case inr.inr.inr.inl => exact resume_extends hr

/-- Settles O39: a step stands still, refuses, runs a request or polls, and each only appends to the records. -/
theorem historyIsOnlyAppended : Obligations.HistoryIsOnlyAppended := by
  intro s t hs
  obtain ⟨⟨es, hes⟩, w, hw⟩ := step_extends hs
  exact ⟨⟨es, hes.symm⟩, w, hw.symm⟩

/-! ### Who writes the cursor (R22) -/

/-- The cursor's clearing and the moves of `FI` are actions of FLUSH alone. -/
theorem flush_of_mem_requestOps {i : Instr} {op : Op} (h : op ∈ requestOps i)
    (hop : op = .flushCur ∨ op = .incFi ∨ ∃ n, op = .setFi n) : i = .flush := by
  rcases mem_requestOps h with ⟨r, rfl⟩ | ht
  · simp at hop
  cases i with
  | flush => rfl
  | _ => rcases hop with rfl | rfl | ⟨n, rfl⟩ <;> simp [Instr.takes] at ht

/-- A request leaves `CUR`, or gives it a value that one of its actions sets. -/
theorem exec_cur {P : Nat → Prop} {i : Instr} {s t : State} (h : exec i s = .next t)
    (hset : ∀ n, Instr.takes i (.setCur n) → P n) (hflush : i = .flush → Config.flushCursor = .zero → P 0) :
    t.cur = s.cur ∨ P t.cur := by
  refine exec_rel (R := fun s t => t.cur = s.cur ∨ P t.cur) (fun _ => .inl rfl) ?_ (fun _ _ _ _ _ => .inl rfl)
    (fun _ => .inl rfl) (fun _ _ => .inl rfl) ?_ h
  · rintro s t u ht (hu | hu)
    · rwa [hu]
    · exact .inr hu
  · intro op hop s t hf
    rcases hf.cur with hc | rfl | ⟨rfl, hc⟩
    · exact .inl hc
    · exact .inr (hset _ ((mem_requestOps hop).resolve_left (by simp)))
    · rw [hc]
      cases hz : Config.flushCursor with
      | keep => exact .inl rfl
      | zero => exact .inr (hflush (flush_of_mem_requestOps hop (.inl rfl)) hz)

/-- Settles O34: the values of `CUR` are those its setting actions name, request by request. -/
theorem cursorWriters : Obligations.CursorWriters := by
  intro s t i h
  cases i with
  | send | init | clear => simpa using exec_cur (P := fun _ => False) h (by simp [Instr.takes]) nofun
  | flush =>
    exact exec_cur (P := fun n => Config.flushCursor = .zero ∧ n = 0) h (by simp [Instr.takes]) fun _ hz => ⟨hz, rfl⟩
  | settextpos row col =>
    exact exec_cur (P := fun n => validCell row col = true ∧ n = textIndex row col) h (by simp [Instr.takes]) nofun
  | setpixpos x y | drawpixel x y =>
    exact exec_cur (P := fun n => validPix x y = true ∧ n = pixIndex x y) h (by simp [Instr.takes]) nofun
  | drawline x1 x2 y1 y2 =>
    exact exec_cur (P := fun n => ∃ q ∈ plottedPixels x1 x2 y1 y2, n = pixIndex q.1 q.2) h (by simp [Instr.takes]) nofun

/-! ### Who writes the other registers (R31-R33, R36, R37) -/

/-- The reset line, the bus configuration and INIT's mark are actions of INIT alone. -/
theorem init_of_mem_requestOps {i : Instr} {op : Op} (h : op ∈ requestOps i)
    (hop : (∃ l, op = .driveRst l) ∨ op = .busConfig ∨ op = .setInitDone) : i = .init := by
  rcases mem_requestOps h with ⟨r, rfl⟩ | ht
  · simp at hop
  cases i with
  | init => rfl
  | _ => rcases hop with ⟨l, rfl⟩ | rfl | rfl <;> simp [Instr.takes] at ht

/-- The working registers are set by DRAWLINE alone. -/
theorem drawline_of_mem_requestOps {i : Instr} {r : LineRegs} (h : .setLine r ∈ requestOps i) :
    ∃ x1 x2 y1 y2, i = .drawline x1 x2 y1 y2 := by
  have ht := mem_requestOps h
  cases i with
  | drawline x1 x2 y1 y2 => exact ⟨x1, x2, y1, y2, rfl⟩
  | _ => simp [Instr.takes] at ht

/-- A mark that no action clears stays set through a request. -/
theorem exec_keeps_mark (f : State → Bool) {i : Instr} {s t : State} (h : exec i s = .next t)
    (hop : ∀ op s t, OpFrame op s t → f t = f s ∨ f t = true)
    (hhold : ∀ opc (s : State) k b rest, f (s.hold opc k b rest) = f s := by intros; rfl)
    (hbegin : ∀ s : State, f s.begin = f s := by intros; rfl)
    (hfault : ∀ (s : State) r, f (s.raiseFault r) = f s := by intros; rfl) : f s = true → f t = true :=
  exec_rel (R := fun s t => f s = true → f t = true) (fun _ => id) (fun _ _ _ h h' => h' ∘ h)
    (fun _ _ _ _ _ => (hhold ..).trans) (fun _ => (hbegin _).trans) (fun _ _ => (hfault ..).trans)
    (fun op _ s t hf hs => (hop op s t hf).elim (·.trans hs) id) h

theorem exec_busReady {i : Instr} {s t : State} (h : exec i s = .next t) : s.busReady = true → t.busReady = true :=
  exec_keeps_mark (·.busReady) h fun _ _ _ hf => hf.busReady.imp_right And.right

/-- INIT's registers, through any other request. -/
theorem exec_initRegs {i : Instr} {s t : State} (h : exec i s = .next t) (hi : i ≠ .init) :
    t.rstN = s.rstN ∧ t.busReady = s.busReady ∧ t.initDone = s.initDone :=
  ⟨exec_keeps (·.rstN) h fun _ hop _ _ hf =>
      hf.rstN.resolve_right fun ho => hi (init_of_mem_requestOps hop (.inl ⟨_, ho⟩)),
    exec_keeps (·.busReady) h fun _ hop _ _ hf =>
      hf.busReady.resolve_right fun ho => hi (init_of_mem_requestOps hop (.inr (.inl ho.1))),
    exec_keeps (·.initDone) h fun _ hop _ _ hf =>
      hf.initDone.resolve_right fun ho => hi (init_of_mem_requestOps hop (.inr (.inr ho.1)))⟩

/-- Settles O35: each register is written by one action, which one request has. -/
theorem specialRegisterWriters : Obligations.SpecialRegisterWriters := by
  intro s t i h
  refine ⟨exec_initRegs h, exec_busReady h, ?_, ?_, ?_, exec_refused h, exec_req h⟩
  · exact exec_keeps_mark (·.initDone) h fun _ _ _ hf => hf.initDone.imp_right And.right
  · intro hi
    refine exec_keeps (·.line) h fun op hop s t hf => hf.line.resolve_right fun ho => ?_
    obtain ⟨x1, x2, y1, y2, rfl⟩ := drawline_of_mem_requestOps (ho ▸ hop)
    exact hi x1 x2 y1 y2 rfl
  · intro hi
    exact exec_keeps (·.fi) h fun op hop s t hf => hf.fi.resolve_right fun ho =>
      hi (flush_of_mem_requestOps hop (.inr (ho.imp_right fun ho => ⟨_, ho⟩)))

/-! ### Requests that send nothing (R116, R152) -/

/-- The actions that move a line or the engine. -/
def Op.movesLines : Op → Bool
  | .send _ _ | .sendFb | .driveRst _ => true
  | _ => false

/-- The lines, their record and the engine's. -/
def State.lines (s : State) : Bool × Bool × Byte × Bool × Bool × List LineChange × List (Option Nat) :=
  (s.sceN, s.dc, s.sdr, s.tc, s.rstN, s.wave, s.engine)

theorem OpFrame.lines_eq {op : Op} {s t : State} (h : OpFrame op s t) (hop : op.movesLines = false) :
    t.lines = s.lines := by
  have hs : ¬((∃ k b, op = .send k b) ∨ op = .sendFb) := by rintro (⟨k, b, rfl⟩ | rfl) <;> cases hop
  have hr : ∀ l, op ≠ .driveRst l := by rintro l rfl; cases hop
  obtain ⟨hsce, hdc, hsdr, htc, he, -⟩ := h.lines.resolve_right hs
  have hw : t.wave = s.wave := by
    rcases h.quiet with hw | ho | ho | ⟨l, ho⟩
    · exact hw
    · exact absurd (.inl ho) hs
    · exact absurd (.inr ho) hs
    · exact absurd ho (hr l)
  simp only [State.lines, hsce, hdc, hsdr, htc, h.rstN.resolve_right (hr _), hw, he]

theorem exec_lines {i : Instr} {s t : State} (h : exec i s = .next t)
    (hop : ∀ op ∈ requestOps i, op.movesLines = false) : t.lines = s.lines :=
  exec_keeps State.lines h fun op ho _ _ hf => hf.lines_eq (hop op ho)

/-- Settles O36: no action of a silent request moves a line. -/
theorem silentRequestsKeepTheLines : Obligations.SilentRequestsKeepTheLines := by
  intro s t i hq h
  have quiet : ∀ op ∈ requestOps i, op.movesLines = false := by
    intro op hop
    rcases mem_requestOps hop with ⟨r, rfl⟩ | ht
    · rfl
    cases i with
    | send | init | flush => exact hq.elim
    | clear =>
      obtain ⟨a, -, rfl⟩ := ht
      rfl
    | settextpos | setpixpos | drawpixel => exact absurd (ht.1.symm.trans hq) (by decide)
    | drawline =>
      rcases ht with ⟨r, rfl⟩ | ⟨q, hm, -⟩
      · rfl
      · simp [hq] at hm
  simpa [State.lines] using exec_lines h quiet

/-! ### Requests with a responsive engine (R172, R183) -/

/-- An engine with nothing recorded completes every transfer at once (R96). -/
theorem State.promptFor_of_engine_nil {s : State} (h : s.engine = []) (n : Nat) : s.promptFor n = true := by
  simp [State.promptFor, h]

/-- What a request under way needs to go on to its response: the bus configured, a responsive engine, no fault. -/
structure State.Able (s : State) : Prop where
  busReady : s.busReady = true
  engine : s.engine = []
  noFault : s.fault = none

/-- The actions `ops` run through, whatever stands after them, and count no response. -/
def Passes (ops : List Op) : Prop :=
  ∀ opc rest (s : State), s.Able →
    ∃ t : State, runOps opc (ops ++ rest) s = runOps opc rest t ∧ t.Able ∧ t.ri = s.ri

theorem Passes.nil : Passes [] := fun _ _ s h => ⟨s, rfl, h, rfl⟩

theorem Passes.append {a b : List Op} (ha : Passes a) (hb : Passes b) : Passes (a ++ b) := by
  intro opc rest s h
  obtain ⟨t, hrt, ht, hti⟩ := ha opc (b ++ rest) s h
  obtain ⟨u, hru, hu, hui⟩ := hb opc rest t ht
  exact ⟨u, by rw [List.append_assoc, hrt, hru], hu, hui.trans hti⟩

theorem Passes.flatMap {α : Type} {f : α → List Op} (hf : ∀ a, Passes (f a)) : ∀ l : List α, Passes (l.flatMap f)
  | [] => .nil
  | a :: l => (hf a).append (.flatMap hf l)

/-- An action that only rewrites registers a request under way does not lean on. -/
theorem Passes.single {op : Op} (f : State → State) (hd : ∀ opc s, doOp opc op s = .ok (f s) := by intros; rfl)
    (hf : ∀ s : State, (f s).busReady = s.busReady ∧ (f s).engine = s.engine ∧ (f s).fault = s.fault ∧
      (f s).ri = s.ri := by exact fun _ => ⟨rfl, rfl, rfl, rfl⟩) : Passes [op] := by
  intro opc rest s h
  obtain ⟨hb, he, hfault, hri⟩ := hf s
  exact ⟨f s, runOps_cons_ok (hd opc s), ⟨hb.trans h.busReady, he.trans h.engine, hfault.trans h.noFault⟩, hri⟩

theorem Passes.setCur (n : Nat) : Passes [.setCur n] := .single fun s => { s with cur := n }

theorem Passes.setLine (r : LineRegs) : Passes [.setLine r] := .single fun s => { s with line := r }

theorem Passes.flushCur : Passes [.flushCur] :=
  .single fun s => { s with cur := flushCursor Config.flushCursor s.cur }

theorem Passes.send (k : Kind) (b : Byte) : Passes [.send k b] := fun opc rest s h =>
  ⟨_, runOps_send opc k b rest h.busReady (s.promptFor_of_engine_nil h.engine 1),
    ⟨h.busReady, by simp [h.engine], h.noFault⟩, rfl⟩

theorem Passes.posCmds (bank col : Nat) : Passes (posCmds bank col) := (Passes.send _ _).append (.send _ _)

/-- Both positionings: the two commands and then the cursor, or nothing (R117). -/
theorem Passes.posOps (valid : Bool) (bank col n : Nat) :
    Passes (if valid then Machine.posCmds bank col ++ [.setCur n] else []) := by
  split
  · exact (Passes.posCmds bank col).append (.setCur n)
  · exact .nil

theorem Passes.drawPixOps (x y : Nat) : Passes (drawPixOps x y) := by
  rcases Bool.eq_false_or_eq_true (validPix x y) with hv | hv
  · exact fun opc rest s h =>
      ⟨_, runOps_drawPix opc x y rest hv h.busReady (s.promptFor_of_engine_nil h.engine 2),
        ⟨h.busReady, by simp [h.engine], h.noFault⟩, rfl⟩
  · rw [drawPixOps_invalid hv]
    exact .nil

theorem Passes.plotOps (r : LineRegs) : Passes (plotOps r) := (Passes.setLine r).append (.drawPixOps _ _)

theorem Passes.clearWrites : Passes ((List.range Config.nFb).map (fun i => .memWrite i 0x00)) := fun opc rest s h =>
  let ⟨_, hr, _⟩ := runOps_clearWrites opc rest (List.range Config.nFb) s (fun _ => List.mem_range.mp)
  ⟨_, hr, ⟨h.busReady, h.engine, h.noFault⟩, rfl⟩

/-- FLUSH's loop from `FI = 0` (R105). -/
theorem Passes.flushLoop : Passes (.setFi 0 :: flushLoop) := fun opc rest s h =>
  ⟨_, (runOps_cons_ok rfl).trans (runOps_flushTurns opc rest 503 { s with fi := 0 } h.busReady
      (State.promptFor_of_engine_nil h.engine _) (Nat.lt_succ_self 503)),
    ⟨h.busReady, by simp [h.engine], h.noFault⟩, rfl⟩

/-- Every request but INIT is a part that runs through, and its response. -/
theorem passes_requestOps {i : Instr} (hi : i ≠ .init) : ∃ ops r, requestOps i = ops ++ [.respond r] ∧ Passes ops := by
  cases i with
  | init => exact absurd rfl hi
  | send k b => exact ⟨_, _, rfl, .send k b⟩
  | clear => exact ⟨_, _, rfl, .clearWrites⟩
  | flush =>
    refine ⟨posCmds 0 0 ++ ([.flushCur] ++ (.setFi 0 :: flushLoop)), .done, ?_,
      (Passes.posCmds 0 0).append (Passes.flushCur.append .flushLoop)⟩
    simp [requestOps]
  | settextpos row col => exact ⟨_, _, rfl, .posOps _ _ _ _⟩
  | setpixpos x y => exact ⟨_, _, rfl, .posOps _ _ _ _⟩
  | drawpixel x y => exact ⟨_, _, rfl, .drawPixOps x y⟩
  | drawline x1 x2 y1 y2 => exact ⟨_, _, rfl, .flatMap .plotOps _⟩

/-- With the bus configured and a responsive engine, a request other than INIT runs to its response in one step. -/
theorem exec_able {i : Instr} {s : State} (hi : i ≠ .init) (h : s.Able) :
    ∃ t, exec i s = .next t ∧ t.Able ∧ t.phase = .idle ∧ t.ri = s.ri + 1 := by
  obtain ⟨ops, r, ho, hp⟩ := passes_requestOps hi
  obtain ⟨t, hr, ht, hri⟩ := hp i.opcode [.respond r] s.begin ⟨h.busReady, h.engine, h.noFault⟩
  refine ⟨t.respond r, ?_, ⟨ht.busReady, ht.engine, ht.noFault⟩, rfl, congrArg (· + 1) hri⟩
  rw [exec_eq_request fun he => absurd he hi, request, ho, hr]
  rfl

/-- A ready block executes the request whose word the host presents (R77). -/
theorem step_ready_word {s : State} {i : Instr} {later : List ReqWord} (h : s.reqReady) (hi : i.wellFormed = true)
    (hq : s.req = encode i :: later) : step s = exec i { s with req := later } := by
  obtain ⟨hp, hf, hr⟩ := h
  simp only [step, hf, hr, hp, acceptRequest, State.takeRequest, hq, decode_encode_of_wellFormed hi]
  rfl

/-- Settles O44, by induction on the list: each step runs one request to its response and leaves the block ready. -/
theorem requestsAfterInitEndWell : Obligations.RequestsAfterInitEndWell := by
  intro is
  induction is with
  | nil =>
    intro s h _ _ hq _
    obtain ⟨hp, hf, hr⟩ := h
    exact ⟨s, rfl, ⟨rfl, hp, hf, hr⟩, hq⟩
  | cons i is ih =>
    intro s h hb he hq hall
    obtain ⟨⟨hwf, hi⟩, hrest⟩ := List.forall_mem_cons.mp hall
    obtain ⟨t, ht, hable, hph, hri⟩ := exec_able (s := { s with req := is.map encode }) hi ⟨hb, he, h.2.1⟩
    have hstep : core.step s = .next t := (step_ready_word h hwf hq).trans ht
    obtain ⟨u, hu, ⟨hend, hready⟩, hreq⟩ :=
      ih t ⟨hph, hable.noFault, (exec_refused ht).trans h.2.2⟩ hable.busReady hable.engine (exec_req ht) hrest
    refine ⟨u, (run_succ hstep).trans hu, ⟨?_, hready⟩, hreq⟩
    calc u.ri = t.ri + is.length := hend
      _ = s.ri + 1 + is.length := congrArg (· + is.length) hri
      _ = s.ri + (is.length + 1) := by omega

end Sys2Proof.Machine

/-! PROOFS. The statements about the framebuffer (20_memory.md): which requests store to it, and that no request and no
step names an index outside it. -/

namespace Sys2Proof.Machine

/-! ### Who stores to the framebuffer (R55) -/

/-- A byte is stored by its index in CLEAR alone (R116). -/
theorem clear_of_mem_requestOps {i : Instr} {a : Nat} {v : Byte} (h : .memWrite a v ∈ requestOps i) : i = .clear := by
  have ht := mem_requestOps h
  cases i with
  | clear => rfl
  | _ => simp [Instr.takes] at ht

/-- A byte is stored through the cursor in the drawing requests alone (R130). -/
theorem drawing_of_mem_requestOps {i : Instr} {m : Byte} (h : .orAtCur m ∈ requestOps i) :
    (∃ x y, i = .drawpixel x y) ∨ ∃ x1 x2 y1 y2, i = .drawline x1 x2 y1 y2 := by
  have ht := mem_requestOps h
  cases i with
  | drawpixel x y => exact .inl ⟨x, y, rfl⟩
  | drawline x1 x2 y1 y2 => exact .inr ⟨x1, x2, y1, y2, rfl⟩
  | _ => simp [Instr.takes] at ht

/-- A request that neither clears nor draws keeps the framebuffer's cells. -/
theorem exec_fb {i : Instr} {s t : State} (h : exec i s = .next t) (hc : i ≠ .clear)
    (hp : ∀ x y, i ≠ .drawpixel x y) (hl : ∀ x1 x2 y1 y2, i ≠ .drawline x1 x2 y1 y2) : t.fb = s.fb := by
  refine exec_keeps (·.fb) h fun op hop s t hf => hf.fb.resolve_right ?_
  rintro (⟨m, rfl, -⟩ | ⟨a, v, rfl, -⟩)
  · rcases drawing_of_mem_requestOps hop with ⟨x, y, hi⟩ | ⟨x1, x2, y1, y2, hi⟩
    · exact hp x y hi
    · exact hl x1 x2 y1 y2 hi
  · exact hc (clear_of_mem_requestOps hop)

/-- Settles O32: only CLEAR and the drawing requests have a storing action. -/
theorem nonDrawingRequestsKeepTheFramebuffer : Obligations.NonDrawingRequestsKeepTheFramebuffer := by
  intro s t i hi h
  refine State.fbByte_congr (exec_fb h ?_ ?_ ?_)
  · rintro rfl
    exact hi
  · rintro x y rfl
    exact hi
  · rintro x1 x2 y1 y2 rfl
    exact hi

/-! ### No access outside the framebuffer (R56) -/

/-- No action stores through the cursor before one has set it, so a run need not trust the cursor it starts with. -/
def setsCurFirst : List Op → Bool
  | [] => true
  | .setCur _ :: _ => true
  | .orAtCur _ :: _ => false
  | _ :: rest => setsCurFirst rest

theorem setsCurFirst_of_noOrAtCur : ∀ {ops : List Op}, (∀ m, .orAtCur m ∉ ops) → setsCurFirst ops = true
  | [], _ => rfl
  | op :: rest, h => by
    have later : setsCurFirst rest = true :=
      setsCurFirst_of_noOrAtCur fun m hm => h m (List.mem_cons_of_mem op hm)
    cases op with
    | setCur n => rfl
    | orAtCur m => exact absurd (List.mem_cons_self ..) (h m)
    | _ => exact later

/-- `DrawPix` sets the cursor before it stores, or does nothing (R130). -/
theorem setsCurFirst_drawPixOps (x y : Nat) {rest : List Op} (h : setsCurFirst rest = true) :
    setsCurFirst (drawPixOps x y ++ rest) = true := by
  rcases Bool.eq_false_or_eq_true (validPix x y) with hv | hv
  · simp [drawPixOps, pixPosOps, posCmds, hv, setsCurFirst]
  · rwa [drawPixOps_invalid hv]

theorem setsCurFirst_line {rest : List Op} (h : setsCurFirst rest = true) :
    ∀ trace : List LineRegs, setsCurFirst (trace.flatMap plotOps ++ rest) = true
  | [] => h
  | r :: trace => by
    rw [List.flatMap_cons, List.append_assoc]
    exact setsCurFirst_drawPixOps r.ly.toNat r.lx.toNat (setsCurFirst_line h trace)

theorem setsCurFirst_requestOps (i : Instr) : setsCurFirst (requestOps i) = true := by
  cases i with
  | drawpixel x y => exact setsCurFirst_drawPixOps x y rfl
  | drawline x1 x2 y1 y2 => exact setsCurFirst_line rfl _
  | _ => exact setsCurFirst_of_noOrAtCur fun m hm => by simpa using drawing_of_mem_requestOps hm

/-- FLUSH's positioning keeps the cursor in range (R108). -/
theorem flushCursor_lt (mode : FlushCursor) {cur : Nat} (h : cur < Config.nFb) : flushCursor mode cur < Config.nFb := by
  cases mode with
  | keep => exact h
  | zero => exact Nat.succ_pos 503

/-- A Send goes on with `FI` and `CUR` as they were, is held, or ends the request with a fault. -/
theorem runOps_answers_send {opc : Byte} {op : Op} {k : Kind} {b : Byte} {rest : List Op} {s : State}
    (hd : doOp opc op s = sendByte opc k b s)
    (hrest : ∀ u : State, u.fi = s.fi → u.cur = s.cur → ∃ t, runOps opc rest u = .next t) :
    ∃ t, runOps opc (op :: rest) s = .next t := by
  rcases sendByte_cases opc k b s with ⟨-, hs⟩ | ⟨-, e, hs⟩ | ⟨-, e, hs⟩
  · exact ⟨_, runOps_cons_raised (hd.trans hs)⟩
  · rw [runOps_cons_ok (hd.trans hs)]
    exact hrest _ rfl rfl
  · exact ⟨_, runOps_cons_held (hd.trans hs)⟩

/-- The run of safe actions answers a next state from any state, as long as no action trusts a cursor outside `FB`. -/
theorem runOps_answers (opc : Byte) (ops : List Op) (sent : Bool) (s : State) (hsafe : opsSafe sent s.fi ops = true)
    (hcur : s.cur < Config.nFb ∨ setsCurFirst ops = true) : ∃ t, runOps opc ops s = .next t := by
  induction ops generalizing sent s with
  | nil => exact ⟨s, rfl⟩
  | cons op rest ih =>
    have ofOk : ∀ {u : State} (sent' : Bool), doOp opc op s = .ok u → opsSafe sent' u.fi rest = true →
        (u.cur < Config.nFb ∨ setsCurFirst rest = true) → ∃ t, runOps opc (op :: rest) s = .next t := by
      intro u sent' hd hr hc
      rw [runOps_cons_ok hd]
      exact ih sent' u hr hc
    cases op with
    | send k b => exact runOps_answers_send rfl fun u hfi hc => ih true u (hfi ▸ hsafe) (hc ▸ hcur)
    | sendFb =>
      simp only [opsSafe, Bool.and_eq_true, decide_eq_true_eq] at hsafe
      obtain ⟨hfi, hrest⟩ := hsafe
      have hd : doOp opc .sendFb s = sendByte opc .data (s.fbByte s.fi) s := by simp [doOp, State.memRead_of_lt s hfi]
      exact runOps_answers_send hd fun u hu hc => ih true u (hu ▸ hrest) (hc ▸ hcur)
    | setCur n =>
      simp only [opsSafe, Bool.and_eq_true, decide_eq_true_eq] at hsafe
      exact ofOk sent rfl hsafe.2 (.inl hsafe.1)
    | flushCur => exact ofOk sent rfl hsafe (hcur.imp_left (flushCursor_lt _))
    | orAtCur m =>
      have hc : s.cur < Config.nFb := hcur.resolve_right (by simp [setsCurFirst])
      refine ofOk (u := { s with fb := s.fb.set s.cur (s.fbByte s.cur ||| m) }) sent ?_ hsafe (.inl hc)
      simp [doOp, State.memRead_of_lt s hc, State.memWrite_of_lt s _ hc]
    | memWrite i v =>
      simp only [opsSafe, Bool.and_eq_true, decide_eq_true_eq] at hsafe
      obtain ⟨⟨-, hi⟩, hrest⟩ := hsafe
      refine ofOk (u := { s with fb := s.fb.set i v }) sent ?_ hrest hcur
      simp [doOp, State.memWrite_of_lt s _ hi]
    | setFi | incFi | setInitDone =>
      simp only [opsSafe, Bool.and_eq_true] at hsafe
      exact ofOk sent rfl hsafe.2 hcur
    | busConfig => exact ofOk true rfl hsafe hcur
    | setLine | driveRst | delay => exact ofOk sent rfl hsafe hcur
    | respond r =>
      simp only [opsSafe, List.isEmpty_iff] at hsafe
      exact ⟨s.respond r, by rw [hsafe]; rfl⟩

/-- Settles O37: the actions of a request are safe, and none leans on the cursor it found. -/
theorem everyRequestAnswersANextState : Obligations.EveryRequestAnswersANextState := by
  intro i s
  rcases exec_cases i s with ⟨-, -, he⟩ | he
  · exact ⟨_, he⟩
  · rw [he]
    exact runOps_answers _ _ false s.begin (opsSafe_requestOps i _) (.inr (setsCurFirst_requestOps i))

/-- What an idle block does with its word is a next state (R74, R77). -/
theorem acceptRequest_answers (s : State) : ∃ t, acceptRequest s = .next t := by
  unfold acceptRequest
  split
  · exact ⟨s, rfl⟩
  · split
    · exact everyRequestAnswersANextState _ _
    · exact ⟨_, rfl⟩

/-- A step from a state that meets the invariant, neither faulted nor refused, answers a next state. -/
theorem State.Inv.step_answers {s : State} (h : s.Inv) (hf : s.fault = none) (hr : s.refused = false) :
    ∃ t, step s = .next t := by
  simp only [step, hf, hr, Bool.false_eq_true, if_false]
  split
  · exact acceptRequest_answers s
  all_goals
    split
    next p hp =>
      obtain ⟨t, ht, -⟩ := resume_inv h hp
      exact ⟨t, ht⟩
    · exact ⟨s, rfl⟩

/-- Settles O38: a stopped block stops with its own record or the refusal, and any other answers a next state. -/
theorem noStepLeavesTheFramebuffer : Obligations.NoStepLeavesTheFramebuffer := by
  intro s a h hs
  rcases Option.eq_none_or_eq_some s.fault with hf | ⟨r, hf⟩
  · rcases Bool.eq_false_or_eq_true s.refused with hr | hr
    · simp [step, hf, hr] at hs
    · obtain ⟨t, ht⟩ := h.step_answers hf hr
      cases ht.symm.trans hs
  · simp [step, hf] at hs

end Sys2Proof.Machine

/-! PROOFS. The statements about the encoding (30_encoding.md): decoder and encoder are inverse to each other, which
words are refused, the assembler's lines, and what a ready block does with the presented word. -/

namespace Sys2Proof

/-! ### Decoder and encoder (R70-R75) -/

/-- Settles O2, by the decoder's tests on the fields of the request's own word. -/
theorem decodeOfEncode : Obligations.DecodeOfEncode := fun _ h => decode_encode_of_wellFormed h

/-- The byte of a field is a `u8` (R72). -/
@[simp] theorem isU8_toNat (v : Byte) : isU8 v.toNat = true := decide_eq_true v.isLt

/-- SEND's field A, once its mask has let it through, is the field of the kind it is read as (R71). -/
theorem kindField_kindOfField {v : Byte} (h : v &&& 0xFE = 0) : kindField (kindOfField v) = v := by
  rcases (kind_mask v).mp h with rfl | rfl <;> rfl

/-- A word is five fields packed when its fields are those (R70). -/
theorem packWord_of_fields {w : ReqWord} {o a b c d : Byte}
    (h : w.opc = o ∧ w.a = a ∧ w.b = b ∧ w.c = c ∧ w.d = d) : packWord o a b c d = w := by
  obtain ⟨rfl, rfl, rfl, rfl, rfl⟩ := h
  exact pack_fields w

/-- A word of format F2 (R71) is packed from its two operands. -/
theorem packWord_of_pair {w : ReqWord} {o : Byte} (h : w.opc = o ∧ w.c = 0 ∧ w.d = 0) :
    packWord o (.ofNat 8 w.a.toNat) (.ofNat 8 w.b.toNat) 0 0 = w :=
  packWord_of_fields ⟨h.1, by simp, by simp, h.2⟩

/-- Settles O3: the test of the decoder that a word passes fixes every field that its format leaves to no operand. -/
theorem encodeOfDecode : Obligations.EncodeOfDecode := by
  intro w i h
  rw [decode_eq, decodeF] at h
  have pair : (isU8 w.a.toNat && isU8 w.b.toNat) = true := by simp
  split_ifs at h with hsend hinit hclear hflush htext hpix hdraw hline <;> cases h
  · obtain ⟨ho, ha, hc, hd⟩ := hsend
    exact ⟨rfl, packWord_of_fields ⟨ho, (kindField_kindOfField ha).symm, rfl, hc, hd⟩⟩
  · exact ⟨rfl, packWord_of_fields hinit⟩
  · exact ⟨rfl, packWord_of_fields hclear⟩
  · exact ⟨rfl, packWord_of_fields hflush⟩
  · exact ⟨pair, packWord_of_pair htext⟩
  · exact ⟨pair, packWord_of_pair hpix⟩
  · exact ⟨pair, packWord_of_pair hdraw⟩
  · exact ⟨by simp [Instr.wellFormed], packWord_of_fields ⟨hline, by simp, by simp, by simp, by simp⟩⟩

/-- An operand that fits its field is the value of the field it is written to (R72). -/
theorem toNat_ofNat_of_isU8 {n : Nat} (h : isU8 n = true) : (BitVec.ofNat 8 n).toNat = n :=
  Nat.mod_eq_of_lt (of_decide_eq_true h)

/-- Settles O5: a word that decodes is the word of its request, whose fields hold the operands. -/
theorem operandsAreZeroExtendedFields : Obligations.OperandsAreZeroExtendedFields := by
  intro w i h
  obtain ⟨hwf, rfl⟩ := encodeOfDecode w i h
  cases i with
  | send k b => cases k <;> simp [encode, kindField]
  | init | clear | flush => trivial
  | settextpos m n | setpixpos m n | drawpixel m n =>
    rw [Instr.wellFormed, Bool.and_eq_true] at hwf
    obtain ⟨hm, hn⟩ := hwf
    simp only [encode, pack_a, pack_b, toNat_ofNat_of_isU8 hm, toNat_ofNat_of_isU8 hn, and_self]
  | drawline x1 x2 y1 y2 =>
    simp only [Instr.wellFormed, Bool.and_eq_true] at hwf
    obtain ⟨⟨⟨hx1, hx2⟩, hy1⟩, hy2⟩ := hwf
    simp only [encode, pack_a, pack_b, pack_c, pack_d, toNat_ofNat_of_isU8 hx1, toNat_ofNat_of_isU8 hx2,
      toNat_ofNat_of_isU8 hy1, toNat_ofNat_of_isU8 hy2, and_self]

/-- The opcodes of R73 by their formats (R71), and the reserved ones of R75. -/
theorem opcode_cases (o : Byte) : o = 1 ∨ (o = 2 ∨ o = 3 ∨ o = 4) ∨ (o = 5 ∨ o = 6 ∨ o = 7) ∨ o = 8 ∨
    (o = 0 ∨ 9 ≤ o.toNat) := by
  revert o
  decide

/-- SEND's mask stops the fields A that name no kind (R75). -/
theorem kind_mask_ne_iff (v : Byte) : ¬ v &&& 0xFE = 0 ↔ 2 ≤ v.toNat := by
  revert v
  decide

/-- A word whose opcode leaves the decoder one test is refused when the word fails it. -/
theorem refused_iff_not {p : Prop} [Decidable p] {i : Instr} {r : IllegalRequest} :
    (∃ e, (if p then Except.ok i else .error r) = .error e) ↔ ¬ p := by
  split <;> simp [*]

/-- Settles O4, opcode by opcode: the one test of the decoder that the opcode can pass fails. -/
theorem illegalWordsAreRefused : Obligations.IllegalWordsAreRefused := by
  intro w
  rw [decode_eq, decodeF]
  rcases opcode_cases w.opc with ho | hnone | hpair | ho | ho | ho
  · simp [ho, refused_iff_not, ← kind_mask_ne_iff, imp_iff_not_or, or_comm]
  · rcases hnone with ho | ho | ho <;> simp [ho, refused_iff_not, imp_iff_not_or]
  · rcases hpair with ho | ho | ho <;> simp [ho, refused_iff_not, imp_iff_not_or]
  · simp [ho]
  · simp [ho]
  · have ne (k : Byte) (hk : k.toNat < 9) : w.opc ≠ k := by
      rintro rfl
      omega
    simp [ho, ne]

end Sys2Proof

namespace Sys2Proof.Machine

/-! ### The worked encodings and the assembler's text (R78-R80) -/

/-- Settles O1: the decoder evaluated on each listed word. -/
theorem workedEncodingsDecode : Obligations.WorkedEncodingsDecode :=
  ⟨by decide, by decide, by decide, by decide, by decide, by decide, by decide, by decide, by decide, by decide,
    by decide, fun _ h => (nomatch h), fun _ h => (nomatch h), fun _ h => (nomatch h)⟩

/-- Settles O6: the constructors of `AsmLine` are the pseudo-instructions. -/
theorem pseudoInstructionsExpand : Obligations.PseudoInstructionsExpand := by
  refine fun b xa ya xb yb => ⟨rfl, rfl, rfl, fun l => ?_⟩
  cases l with
  | core i => exact .inl ⟨i, rfl⟩
  | sendcmd b => exact .inr (.inl ⟨b, rfl⟩)
  | senddata b => exact .inr (.inr (.inl ⟨b, rfl⟩))
  | line xa ya xb yb => exact .inr (.inr (.inr ⟨xa, ya, xb, yb, rfl⟩))

/-- Settles O7: the assembler evaluated on each line. Blanks, the empty line and the case of hexadecimal digits are the
model's choice (notes/assumptions/17.md). -/
theorem textLinesAssemble : Obligations.TextLinesAssemble :=
  ⟨by decide, by decide, by decide, by decide, by decide, by decide, by decide⟩

/-! ### The host port (R77) -/

/-- A ready block does with its word what the port says. -/
theorem step_ready {s : State} (h : s.reqReady) : step s = acceptRequest s := by
  obtain ⟨hp, hf, hr⟩ := h
  simp [step, hp, hf, hr]

/-- The port executes a presented word that decodes. -/
theorem acceptRequest_ok {s : State} {w : ReqWord} {later : List ReqWord} {i : Instr} (hq : s.req = w :: later)
    (hd : decode w = .ok i) : acceptRequest s = exec i { s with req := later } := by
  simp only [acceptRequest, State.takeRequest, hq, hd]

/-- The port marks a presented word that does not decode (R74). -/
theorem acceptRequest_error {s : State} {w : ReqWord} {later : List ReqWord} {e : IllegalRequest}
    (hq : s.req = w :: later) (hd : decode w = .error e) :
    acceptRequest s = .next { s with req := later, refused := true } := by
  simp only [acceptRequest, State.takeRequest, hq, hd, State.refuse]

/-- Settles O11: the port executes a word that decodes. -/
theorem stepRunsDecodedRequest : Obligations.StepRunsDecodedRequest :=
  fun _ _ _ _ h hq hd => (step_ready h).trans (acceptRequest_ok hq hd)

/-- A block that has refused a word, with no fault recorded, stops (R155). -/
theorem step_refused {s : State} (hf : s.fault = none) (hr : s.refused = true) : step s = .refused .illegalRequest := by
  simp [step, hf, hr]

/-- Settles O12: the port marks a word that does not decode, and the mark is the stop. -/
theorem illegalWordIsRefused : Obligations.IllegalWordIsRefused :=
  fun _ _ _ _ h hq hd => ⟨(step_ready h).trans (acceptRequest_error hq hd), step_refused h.2.1 rfl⟩

/-- Settles O15: with no word presented the port leaves the state as it is. -/
theorem idleBlockStaysIdle : Obligations.IdleBlockStaysIdle := by
  intro s h hq
  rw [step_ready h]
  simp only [acceptRequest, State.takeRequest, hq]

/-- A poll takes no word (R94). -/
theorem resume_req {p : Pending} {s t : State} (h : resume p s = .next t) : t.req = s.req := by
  rcases resume_cases h with ⟨u, _, _, hr, hu⟩ | ⟨_, rfl⟩
  · have rest := runOps_rel (R := fun s t => t.req = s.req) (fun _ => rfl) (fun _ _ _ h h' => h'.trans h)
      (fun _ _ _ _ => rfl) p.rest (fun _ _ _ _ hg => (doOp_frame hg).req) _ _ hr
    rw [rest, hu]
  · rfl

/-- Settles O14: of the things a step can do, refusing and executing take the presented word, and the others none. -/
theorem wordsAreTakenOnlyWhenReady : Obligations.WordsAreTakenOnlyWhenReady := by
  intro s t hs
  obtain ⟨hf, hr, hc⟩ := step_cases hs
  rcases hc with ⟨-, -, rfl⟩ | ⟨hi, w, _, _, hq, -, rfl⟩ | ⟨hi, w, _, _, hq, -, he⟩ | ⟨-, _, -, hp⟩ | ⟨-, -, rfl⟩
  case inl | inr.inr.inr.inr => exact .inr rfl
  case inr.inl => exact .inl ⟨⟨hi, hf, hr⟩, w, hq⟩
  case inr.inr.inl => exact .inl ⟨⟨hi, hf, hr⟩, w, by rw [exec_req he, hq]⟩
  case inr.inr.inr.inl => exact .inr (resume_req hp)

/-- Settles O16: one code for each response, none of them `0b11`. -/
theorem responseCodes : Obligations.ResponseCodes :=
  ⟨rfl, rfl, rfl, fun r => by cases r <;> decide⟩

end Sys2Proof.Machine

/-! PROOFS. The statements about the serial transport (40_transport.md): what a request sends, how a transfer that never
completes holds it, and that a slow transfer changes nothing of it. -/

namespace Sys2Proof.Machine

/-! ### What is sent when the transfers complete (R90-R92, R137) -/

/-- The response is the end of a request (R10). -/
theorem runOps_respond (opc : Byte) (r : Response) (s : State) : runOps opc [.respond r] s = .next (s.respond r) := rfl

/-- Settles O17: one prompt Send, and the response. -/
theorem sendFramesOneByte : Obligations.SendFramesOneByte := by
  intro s k b hb he
  have hrun : exec (.send k b) s = runOps 0x01 [.respond .done] _ :=
    runOps_send (s := s.begin) 0x01 k b [.respond .done] hb he
  rw [hrun, runOps_respond]
  cases k <;> simp [State.respond, State.begin, modeLevel, envelope]

/-- Settles O26: the plotting of the line's points, and the response. -/
theorem drawLinePlotsItsPoints : Obligations.DrawLinePlotsItsPoints := by
  intro s x1 x2 y1 y2 hb he
  rw [plottedPixels_eq] at he ⊢
  obtain ⟨t, hrun, hist, wave, cur, fb, lines, hpending, hri, hframe⟩ :=
    runOps_plot 0x08 [.respond .ok] (lineTrace x1 x2 y1 y2) s.begin hb he
  refine ⟨t.respond .ok, hrun.trans (runOps_respond ..), ?_, wave, cur, fb, lines, rfl, hpending,
    congrArg (· + 1) hri, hframe⟩
  rw [State.respond_hist, hist, List.append_assoc, State.begin_hist]

/-! ### A held request (R94) -/

/-- No fault and no refusal stops the block, and it holds no transfer. -/
def State.Running (s : State) : Prop := s.fault = none ∧ s.refused = false ∧ s.pending = none

theorem State.hold_release {s : State} (hp : s.pending = none) (opc : Byte) (k : Kind) (b : Byte) (rest : List Op) :
    { s.hold opc k b rest with pending := none } = s := by
  rw [← hp]
  rfl

/-- A step of a block that holds a transfer is one poll of `TC`. -/
theorem step_hold {s : State} (h : s.Running) (hph : s.phase = .waitTc) (opc : Byte) (k : Kind) (b : Byte)
    (rest : List Op) : step (s.hold opc k b rest) = resume ⟨opc, k, b, rest⟩ (s.hold opc k b rest) := by
  obtain ⟨hf, hr, -⟩ := h
  simp [step, hf, hr, hph]

/-- The poll that completes the transfer: the rest of the request follows. -/
theorem step_hold_ok {s u : State} {k : Kind} {b : Byte} (h : s.Running) (hph : s.phase = .waitTc)
    (ha : awaitTc k b s = .ok u) (opc : Byte) (rest : List Op) : step (s.hold opc k b rest) = runOps opc rest u := by
  rw [step_hold h hph]
  simp only [resume, State.hold_release h.2.2, ha]

/-- A poll before that: the request stays held. -/
theorem step_hold_held {s u : State} {k : Kind} {b : Byte} (h : s.Running) (hph : s.phase = .waitTc)
    (ha : awaitTc k b s = .held k b u) (opc : Byte) (rest : List Op) :
    step (s.hold opc k b rest) = .next (u.hold opc k b rest) := by
  rw [step_hold h hph]
  simp only [resume, State.hold_release h.2.2, ha]

/-! ### Transfers that never complete (R156) -/

/-- A poll of a transfer that never completes changes nothing. -/
theorem awaitTc_dead (k : Kind) (b : Byte) {s : State} {later : List (Option Nat)} (ht : s.tc = false)
    (he : s.engine = none :: later) : awaitTc k b s = .held k b s := by
  have hstep : engineStep s = s := by
    simp only [engineStep, engineAnswer, he, ite_self]
  rw [awaitTc, hstep, if_neg (by simp [ht])]

/-- A block that waits for such a transfer stays as it is. -/
theorem State.Waiting.step_dead {s : State} {p : Pending} {later : List (Option Nat)} (hw : s.Waiting p)
    (hp : s.pending = some p) (hr : s.refused = false) (he : s.engine = none :: later) : step s = .next s := by
  have hs : State.hold { s with pending := none } p.opc p.kind p.byte p.rest = s := by
    show { s with pending := some p } = s
    rw [← hp]
  have poll := awaitTc_dead p.kind p.byte (s := { s with pending := none }) hw.tc he
  have hstep := step_hold_held (s := { s with pending := none }) ⟨hw.noFault, hr, rfl⟩ hw.phase poll p.opc p.rest
  rwa [hs] at hstep

/-- A state that a step leaves as it is stays for ever. -/
theorem run_fixed {M : Host.Core} {s : M.State} (h : M.step s = .next s) : ∀ n, M.run n s = .next s
  | 0 => rfl
  | n + 1 => (run_succ h).trans (run_fixed h n)

/-- Settles O31: the invariant says that the held request waits, and its poll changes nothing. -/
theorem deadEngineHangsForEver : Obligations.DeadEngineHangsForEver := by
  intro s p later n h hr hp he
  have hw := h.waiting p hp
  refine ⟨run_fixed (M := core) (hw.step_dead hp hr he) n, hw.phase, fun hready => ?_⟩
  cases hw.phase.symm.trans hready.1

/-- What a request has done before its first Send: DRAWLINE may have moved its working registers, and INIT has pulsed
the reset line and configured the bus (R101, R102). -/
structure State.ReachesSend (s : State) (i : Instr) (u : State) : Prop where
  wave : u.wave = s.wave ++ if i = .init then [.rstN false, .rstN true] else []
  hist : u.hist = s.hist ++ if i = .init then [.rst false, .delay .lo, .rst true, .delay .hi, .busCfg] else []
  fb : u.fb = s.fb
  cur : u.cur = s.cur
  initDone : u.initDone = s.initDone
  busReady : u.busReady = true
  ri : u.ri = s.ri
  fault : u.fault = s.fault
  refused : u.refused = s.refused
  engine : u.engine = s.engine

theorem State.reachesSend_begin {s : State} {i : Instr} (hi : i ≠ .init) (hb : s.busReady = true) (r : LineRegs) :
    s.ReachesSend i { s.begin with line := r } :=
  ⟨by simp [hi], by simp [hi], rfl, rfl, rfl, hb, rfl, rfl, rfl, rfl⟩

/-- A request whose first action is a Send that never completes. -/
theorem exec_dead_of_head {s : State} {i : Instr} {k : Kind} {b : Byte} {later : List (Option Nat)}
    (hb : s.busReady = true) (he : s.engine = none :: later) (hi : i ≠ .init)
    (ho : (requestOps i).head? = some (.send k b)) :
    ∃ u rest, exec i s = .next ((u.sendStart k b).hold i.opcode k b rest) ∧ s.ReachesSend i u := by
  obtain ⟨rest, ho⟩ := List.head?_eq_some_iff.mp ho
  refine ⟨s.begin, rest, ?_, s.reachesSend_begin hi hb s.line⟩
  rw [exec_eq_request fun h => absurd h hi, request, ho]
  exact runOps_send_dead (s := s.begin) i.opcode k b rest hb he

/-- INIT with a dead engine (V2.28). -/
theorem exec_init_dead {s : State} {later : List (Option Nat)} (hd : s.initDone = false)
    (he : s.engine = none :: later) : ∃ u rest,
      exec .init s = .next ((u.sendStart .cmd (Config.initSeq 0)).hold 0x02 .cmd (Config.initSeq 0) rest) ∧
      s.ReachesSend .init u := by
  have hrun : exec .init s = _ := (exec_eq_request fun _ => hd).trans (runOps_resetPulse _ _ s.begin)
  exact ⟨_, _, hrun.trans (runOps_send_dead _ _ _ _ rfl he), ⟨rfl, rfl, rfl, rfl, rfl, rfl, rfl, rfl, rfl, rfl⟩⟩

/-- Settles O30: each request that sends comes to its first Send, which holds it as it is. -/
theorem deadEngineHangsSend : Obligations.DeadEngineHangsSend := by
  intro s i k b later hf hr he hi
  obtain ⟨u, rest, hrun, hu⟩ : ∃ u rest, exec i s = .next ((u.sendStart k b).hold i.opcode k b rest) ∧
      s.ReachesSend i u := by
    cases i with
    | send k' b' =>
      obtain ⟨hb, rfl, rfl⟩ := hi
      exact exec_dead_of_head hb he nofun rfl
    | init =>
      obtain ⟨hd, rfl, rfl⟩ := hi
      exact exec_init_dead hd he
    | clear => exact hi.elim
    | flush =>
      obtain ⟨hb, rfl, rfl⟩ := hi
      exact exec_dead_of_head hb he nofun rfl
    | settextpos row col =>
      obtain ⟨hb, hrow, hcol, rfl, rfl⟩ := hi
      exact exec_dead_of_head hb he nofun (by simp [requestOps, textPosOps, posCmds, validCell_iff, hrow, hcol])
    | setpixpos x y =>
      obtain ⟨hb, hx, hy, rfl, rfl⟩ := hi
      exact exec_dead_of_head hb he nofun (by simp [requestOps, pixPosOps, posCmds, validPix_iff, hx, hy, pixBank])
    | drawpixel x y =>
      obtain ⟨hb, hx, hy, rfl, rfl⟩ := hi
      exact exec_dead_of_head hb he nofun
        (by simp [requestOps, drawPixOps, pixPosOps, posCmds, validPix_iff, hx, hy, pixBank])
    | drawline x1 x2 y1 y2 =>
      obtain ⟨hb, rfl, q, hq, rfl⟩ := hi
      rw [plottedPixels_eq] at hq
      obtain ⟨r, rest, hrun⟩ := runOps_plot_dead 0x08 [.respond .ok] (lineTrace x1 x2 y1 y2) s.begin hb he hq
      exact ⟨_, rest, hrun, s.reachesSend_begin (i := .drawline x1 x2 y1 y2) nofun hb r⟩
  have hf' := hu.fault.trans hf
  have hr' := hu.refused.trans hr
  refine ⟨_, hrun, rfl, rfl, ?_, rfl, rfl, ?_, hu.hist, hu.fb, hu.cur, hu.initDone, hu.busReady, hu.ri, hf', hr', ?_,
    step_held_dead _ k b rest hf' hr' (hu.engine.trans he)⟩
  · cases k <;> rfl
  · rw [State.hold_wave, State.sendStart_wave, hu.wave, List.append_assoc]
    cases k <;> rfl
  · rintro ⟨hidle, -⟩
    cases hidle

/-! ### Transfers that complete at last (R94, R96) -/

/-- The outcome `r` is, after some more steps, the state `t` but for the engine's record. -/
def ReachesLater (r : Result) (t : State) : Prop :=
  ∃ u n e, r = .next u ∧ Host.Core.run core n u = .next { t with engine := e }

/-- What neither asks the engine nor touches its record comes to the same state at once. -/
theorem ReachesLater.of_engine_unused {f : State → Result} {s t u : State}
    (hf : ∀ e, f { s with engine := e } = .next { u with engine := e }) (h : f { s with engine := [] } = .next t) :
    ReachesLater (f s) t := by
  cases (hf []).symm.trans h
  exact ⟨_, 0, s.engine, hf s.engine, rfl⟩

theorem ReachesLater.exists_run {s t : State} (h : ReachesLater (step s) t) :
    ∃ n e, Host.Core.run core n s = .next { t with engine := e } := by
  obtain ⟨u, n, e, hs, hu⟩ := h
  exact ⟨n + 1, e, (run_succ (M := core) hs).trans hu⟩

theorem ReachesLater.of_step {s t : State} (h : ReachesLater (step s) t) : ReachesLater (.next s) t := by
  obtain ⟨n, e, hn⟩ := h.exists_run
  exact ⟨s, n, e, rfl, hn⟩

/-- The block after a whole Send of `b`, but for the engine's record. -/
def State.sent (s : State) (k : Kind) (b : Byte) : State :=
  { s with
    sceN := true, dc := modeLevel k, sdr := b, tc := true, phase := .busy, wave := s.wave ++ envelope k b,
    hist := s.hist ++ [.bus k b] }

theorem awaitTc_sendStart_done {s : State} {later : List (Option Nat)} (k : Kind) (b : Byte)
    (he : s.engine = some 0 :: later) :
    awaitTc k b (s.sendStart k b) = .ok { s.sent k b with engine := later } := by
  simp [awaitTc, engineStep, engineAnswer, he, State.sendStart, State.sendEnd, State.driveSceN, State.driveDc,
    State.writeSdr, State.transferDone, State.emit, State.sent, envelope]

theorem awaitTc_sendStart_slow {s : State} {d : Nat} {later : List (Option Nat)} (k : Kind) (b : Byte)
    (he : s.engine = some (d + 1) :: later) :
    awaitTc k b (s.sendStart k b) = .held k b (State.sendStart { s with engine := some d :: later } k b) := by
  simp [awaitTc, engineStep, engineAnswer, he, State.sendStart, State.driveSceN, State.driveDc, State.writeSdr]

/-- A held transfer that completes after `d` more polls: the request goes on as after the whole Send. -/
theorem hold_reaches {opc : Byte} {k : Kind} {b : Byte} {rest : List Op} {later : List (Option Nat)} {t : State}
    (d : Nat) {s : State} (hs : s.Running) (he : s.engine = some d :: later)
    (h : ReachesLater (runOps opc rest { s.sent k b with engine := later }) t) :
    ReachesLater (.next ((s.sendStart k b).hold opc k b rest)) t := by
  induction d generalizing s with
  | zero =>
    apply ReachesLater.of_step
    rwa [step_hold_ok (s := s.sendStart k b) hs rfl (awaitTc_sendStart_done k b he)]
  | succ d ih =>
    apply ReachesLater.of_step
    rw [step_hold_held (s := s.sendStart k b) hs rfl (awaitTc_sendStart_slow k b he)]
    exact ih (s := { s with engine := some d :: later }) hs rfl h

/-- A Send on a fair engine: the request goes on, now or later, as after the whole Send. -/
theorem runOps_send_fair {opc : Byte} {op : Op} {k : Kind} {b : Byte} {rest : List Op} {s t : State} (hs : s.Running)
    (hfair : s.engineFair = true) (hb : s.busReady = true) (hd : doOp opc op s = sendByte opc k b s)
    (h : ReachesLater (runOps opc rest { s.sent k b with engine := s.engine.drop 1 }) t) :
    ReachesLater (runOps opc (op :: rest) s) t := by
  have prompt (hp : s.promptFor 1 = true) : ReachesLater (runOps opc (op :: rest) s) t := by
    rwa [runOps_cons_ok (hd.trans (sendByte_prompt opc k b hb hp))]
  match he : s.engine with
  | [] => exact prompt (s.promptFor_of_engine_nil he 1)
  | some 0 :: later => exact prompt (by simp [State.promptFor, he])
  | none :: later => simp [State.engineFair, he] at hfair
  | some (d + 1) :: later =>
    have hheld : sendByte opc k b s = _ := (if_pos hb).trans (awaitTc_sendStart_slow k b he)
    rw [runOps_cons_held (hd.trans hheld)]
    rw [he] at h
    exact hold_reaches d (s := { s with engine := some d :: later }) hs rfl h

/-- What an action does whatever the engine's record: it is a Send, or it takes effect and leaves the record, or it
names a byte outside `FB`. -/
theorem doOp_engine_cases (opc : Byte) (op : Op) (s : State) :
    (∃ k b, ∀ e, doOp opc op { s with engine := e } = sendByte opc k b { s with engine := e }) ∨
    (∃ u : State, doOp opc op s = .ok u ∧ (∀ e, doOp opc op { s with engine := e } = .ok { u with engine := e }) ∧
      u.engine = s.engine ∧ (s.Running → u.Running)) ∨
    ∃ i, ∀ e, doOp opc op { s with engine := e } = .badIndex i := by
  cases op with
  | send k b => exact .inl ⟨k, b, fun _ => rfl⟩
  | sendFb =>
    by_cases hi : s.fi < Config.nFb
    · exact .inl ⟨.data, s.fbByte s.fi, fun e => by simp only [doOp, State.memRead, if_pos hi]; rfl⟩
    · exact .inr (.inr ⟨s.fi, fun e => by simp only [doOp, State.memRead, if_neg hi]⟩)
  | orAtCur m =>
    by_cases hc : s.cur < Config.nFb
    · have hd (e : List (Option Nat)) : doOp opc (.orAtCur m) { s with engine := e } =
          .ok { s with fb := s.fb.set s.cur (s.fbByte s.cur ||| m), engine := e } := by
        simp only [doOp, State.memRead, State.memWrite, if_pos hc]
        rfl
      exact .inr (.inl ⟨_, hd s.engine, hd, rfl, id⟩)
    · exact .inr (.inr ⟨s.cur, fun e => by simp only [doOp, State.memRead, if_neg hc]⟩)
  | memWrite i v =>
    by_cases hi : i < Config.nFb
    · have hd (e : List (Option Nat)) : doOp opc (.memWrite i v) { s with engine := e } =
          .ok { s with fb := s.fb.set i v, engine := e } := by
        simp only [doOp, State.memWrite, if_pos hi]
      exact .inr (.inl ⟨_, hd s.engine, hd, rfl, id⟩)
    · exact .inr (.inr ⟨i, fun e => by simp only [doOp, State.memWrite, if_neg hi]⟩)
  | setFi | incFi | setCur | flushCur | setLine | driveRst | delay | busConfig | setInitDone | respond =>
    exact .inr (.inl ⟨_, rfl, fun _ => rfl, rfl, id⟩)

theorem State.engineFair_drop {s u : State} (h : s.engineFair = true) (hu : u.engine = s.engine.drop 1) :
    u.engineFair = true := by
  simp only [State.engineFair, List.all_eq_true] at h ⊢
  exact fun a ha => h a (List.mem_of_mem_drop (hu ▸ ha))

/-- The run of actions on a fair engine comes, now or later, to what it gives on an instantaneous one. -/
theorem runOps_fair (opc : Byte) (ops : List Op) {s t : State} (hs : s.Running) (hfair : s.engineFair = true)
    (h : runOps opc ops { s with engine := [] } = .next t) : ReachesLater (runOps opc ops s) t := by
  induction ops generalizing s with
  | nil => exact .of_engine_unused (u := s) (fun _ => rfl) h
  | cons op rest ih =>
    rcases doOp_engine_cases opc op s with ⟨k, b, hd⟩ | ⟨u, hok, hd, hu, hrun⟩ | ⟨i, hd⟩
    · rcases Bool.eq_false_or_eq_true s.busReady with hb | hb
      · rw [runOps_cons_ok ((hd []).trans (sendByte_prompt opc k b hb rfl))] at h
        exact runOps_send_fair hs hfair hb (hd s.engine) (ih hs (State.engineFair_drop hfair rfl) h)
      · have raised (e : List (Option Nat)) : doOp opc op { s with engine := e } =
            .raised { s.raiseFault (.busNotReady s.ri opc k b) with engine := e } := by
          rw [hd, sendByte, if_neg (by simp [hb])]
          rfl
        exact .of_engine_unused (fun e => runOps_cons_raised (raised e)) h
    · rw [runOps_cons_ok (hd [])] at h
      rw [runOps_cons_ok hok]
      exact ih (hrun hs) (by rwa [State.engineFair, hu]) h
    · simp [runOps, hd] at h

/-- A request on a fair engine, from a block that holds none. -/
theorem exec_fair {i : Instr} {s t : State} (hs : s.Running) (hfair : s.engineFair = true)
    (h : exec i { s with engine := [] } = .next t) : ReachesLater (exec i s) t := by
  obtain ⟨hf, hr, -⟩ := hs
  by_cases hi : i = .init ∧ s.initDone = true
  · obtain ⟨rfl, hd⟩ := hi
    exact .of_engine_unused (u := s.begin.raiseFault (.reinit s.ri)) (fun _ => exec_init_again hd) h
  · have first : i = .init → s.initDone = false := by simpa using hi
    rw [exec_eq_request first]
    rw [exec_eq_request (s := { s with engine := [] }) first] at h
    exact runOps_fair i.opcode (requestOps i) (s := s.begin) ⟨hf, hr, rfl⟩ hfair h

/-- Settles O43: an idle block and a refused word do not ask the engine, and a request on it comes to the same end. -/
theorem engineDelaysChangeNoResult : Obligations.EngineDelaysChangeNoResult := by
  intro s t hready hp hfair h
  apply ReachesLater.exists_run
  rw [step_ready hready]
  rw [step_ready (s := { s with engine := [] }) hready] at h
  match hq : s.req with
  | [] =>
    refine .of_engine_unused (f := acceptRequest) (u := s) (fun e => ?_) h
    simp only [acceptRequest, State.takeRequest, hq]
  | w :: later =>
    rcases hd : decode w with r | i
    · exact .of_engine_unused (f := acceptRequest) (u := { s with req := later, refused := true })
        (fun _ => acceptRequest_error hq hd) h
    · rw [acceptRequest_ok hq hd]
      rw [acceptRequest_ok (s := { s with engine := [] }) hq hd] at h
      have ⟨_, hf, hr⟩ := hready
      exact exec_fair (s := { s with req := later }) ⟨hf, hr, hp⟩ hfair h

end Sys2Proof.Machine

/-! PROOFS. The statements about the sequencer (41_sequencer.md): what INIT and FLUSH send, what a second INIT comes to,
and what FLUSH sends after CLEAR. -/

namespace Sys2Proof.Machine

/-! ### INIT (R100-R103, R153) -/

/-- Settles O19: a second INIT only records its fault, once the block has taken it up. -/
theorem secondInitFaults : Obligations.SecondInitFaults := fun _ hd => exec_init_again hd

/-- Settles O18: the reset pulse, the six commands, the mark, and the response. -/
theorem initConfiguresTheController : Obligations.InitConfiguresTheController := by
  intro s hd he
  rw [exec_eq_request fun _ => hd, request, requestOps, List.append_assoc, runOps_resetPulse,
    runOps_configCommands, runOps_cons_ok rfl, runOps_respond]
  · simp [State.respond, State.begin]
  · rfl
  · exact he

/-! ### FLUSH (R105-R108) -/

/-- FLUSH's cursor and index actions and its loop: the 504 bytes in index order. -/
theorem runOps_flushBytes {s : State} (opc : Byte) (rest : List Op) (hb : s.busReady = true)
    (he : s.promptFor 504 = true) :
    runOps opc ([.flushCur, .setFi 0] ++ (flushLoop ++ rest)) s = runOps opc rest { s with
      sceN := true, dc := !Config.dcCmd, sdr := s.fbByte 503, tc := true, phase := .busy,
      fi := 504, cur := flushCursor Config.flushCursor s.cur, engine := s.engine.drop 504,
      wave := s.wave ++ (List.range 504).flatMap (fun i => envelope .data (s.fbByte i)),
      hist := s.hist ++ (List.range 504).map (fun i => Event.bus .data (s.fbByte i)) } := by
  have loop := runOps_flushTurns opc rest 503 { s with cur := flushCursor Config.flushCursor s.cur, fi := 0 } hb he
    (Nat.lt_succ_self 503)
  rw [Nat.zero_add, ← List.range_eq_range'] at loop
  rw [List.cons_append, runOps_cons_ok rfl, List.cons_append, runOps_cons_ok rfl, List.nil_append]
  exact loop

/-- Settles O20: the positioning pair, the bytes of the framebuffer, and the response, at both values of P_FLUSH_CURSOR
(R108). -/
theorem flushSendsTheFramebuffer : Obligations.FlushSendsTheFramebuffer := by
  intro s hb he
  rw [exec_eq_request (by simp), request, requestOps, List.append_assoc, List.append_assoc, runOps_posCmds,
    runOps_flushBytes, runOps_respond]
  · cases Config.flushCursor <;> simp [State.respond, State.begin, flushCursor, State.fbByte]
  · exact hb
  · exact State.promptFor_drop (n := 2) he rfl
  · exact hb
  · exact State.promptFor_le he (by decide)

/-! ### CLEAR and then FLUSH (R105, R116) -/

/-- CLEAR responds DONE in every state, and leaves every byte of the framebuffer 0 and every other register alone. -/
theorem exec_clear (s : State) : ∃ fb : Memory,
    exec .clear s = .next { s with
      fb := fb, phase := .idle, pending := none, ri := s.ri + 1, hist := s.hist ++ [.rsp .done] } ∧
    ∀ i, i < Config.nFb → State.fbByte { s with fb := fb } i = 0 := by
  obtain ⟨fb, hrun, hfb⟩ := runOps_clearWrites 0x03 [.respond .done] (List.range Config.nFb) s.begin
    (fun _ => List.mem_range.mp)
  exact ⟨fb, hrun, fun i hi => (hfb i).trans (if_pos (List.mem_range.mpr hi))⟩

/-- The data events of a zeroed framebuffer. -/
theorem map_bus_fbByte_of_zero {s : State} {n : Nat} (h : ∀ i, i < n → s.fbByte i = 0) :
    (List.range n).map (fun i => Event.bus .data (s.fbByte i)) = List.replicate n (.bus .data 0x00) := by
  refine List.eq_replicate_iff.mpr ⟨by simp, fun e he => ?_⟩
  obtain ⟨i, hi, rfl⟩ := List.mem_map.mp he
  rw [h i (List.mem_range.mp hi)]

/-- Settles O45: FLUSH sends the bytes of the framebuffer that CLEAR leaves. -/
theorem clearThenFlushSendsZeroes : Obligations.ClearThenFlushSendsZeroes := by
  intro s hb he
  obtain ⟨fb, hclear, hzero⟩ := exec_clear s
  refine ⟨_, _, hclear, flushSendsTheFramebuffer _ hb he, ?_⟩
  rw [map_bus_fbByte_of_zero]
  · simp only [List.append_assoc, List.cons_append, List.nil_append]
  · exact hzero

end Sys2Proof.Machine

/-! PROOFS. The statements about the address translator (42_addressing.md): what the two positioning requests and CLEAR
come to, and the pixel and text mappings. -/

namespace Sys2Proof.Machine

/-! ### The positioning requests (R112, R115) -/

/-- A positioning whose range check passed: the two commands, then the cursor, then the response OK. -/
theorem request_position {s : State} (opc : Byte) (bank col n : Nat) (hb : s.busReady = true)
    (he : s.promptFor 2 = true) :
    request opc (posCmds bank col ++ [.setCur n] ++ [.respond .ok]) s = .next { s with
      phase := .idle, pending := none, sceN := true, dc := Config.dcCmd, sdr := Config.cmdCol col, tc := true,
      cur := n, engine := s.engine.drop 2, ri := s.ri + 1,
      wave := s.wave ++ (envelope .cmd (Config.cmdBank bank) ++ envelope .cmd (Config.cmdCol col)),
      hist := s.hist ++ [.bus .cmd (Config.cmdBank bank), .bus .cmd (Config.cmdCol col), .rsp .ok] } := by
  rw [request, List.append_assoc, runOps_posCmds]
  · rw [List.cons_append, runOps_cons_ok rfl, List.nil_append, runOps_respond]
    simp [State.respond, State.begin]
  · exact hb
  · exact he

/-- Settles O21: a valid cell passes the check, and the rest is the positioning. -/
theorem setTextPosPositions : Obligations.SetTextPosPositions := by
  intro s row col hrow hcol hb he
  have hv : validCell row col = true := validCell_iff.mpr ⟨hrow, hcol⟩
  rw [exec_eq_request (by simp), requestOps, textPosOps, hv, if_pos rfl]
  exact request_position _ row (textPx col) (textIndex row col) hb he

/-- Settles O22: a valid pixel passes the check, and the rest is the positioning. -/
theorem setPixPosPositions : Obligations.SetPixPosPositions := by
  intro s x y hx hy hb he
  have hv : validPix x y = true := validPix_iff.mpr ⟨hx, hy⟩
  rw [exec_eq_request (by simp), requestOps, pixPosOps, hv, if_pos rfl]
  exact request_position _ (pixBank x) y (pixIndex x y) hb he

/-! ### CLEAR (R116) -/

/-- Settles O24: the 504 writes of CLEAR, and its response. -/
theorem clearZeroesTheFramebuffer : Obligations.ClearZeroesTheFramebuffer := exec_clear

/-! ### The two mappings (R114, R118) -/

/-- The column of a valid pixel is what its index leaves over whole banks. -/
theorem pixIndex_mod_cols (x : Nat) {y : Nat} (hy : y ≤ 83) : pixIndex x y % Config.cols = y := by
  rw [pixIndex, Nat.add_mul_mod_self_right, Nat.mod_eq_of_lt (Nat.lt_succ_of_le hy)]

/-- The bank of a valid pixel is the number of whole banks below its index. -/
theorem pixIndex_div_cols (x : Nat) {y : Nat} (hy : y ≤ 83) : pixIndex x y / Config.cols = pixBank x := by
  rw [pixIndex, Nat.add_mul_div_right _ _ (by decide), Nat.div_eq_of_lt (Nat.lt_succ_of_le hy), Nat.zero_add, pixBank]

/-- A pixel's row is its bank and its bit. -/
theorem pixBank_pixBit (x : Nat) : Config.bankH * pixBank x + pixBit x = x := Nat.div_add_mod x Config.bankH

/-- Two valid pixels with the same byte and the same bit are one. -/
theorem pixel_ext {x y x' y' : Nat} (hy : y ≤ 83) (hy' : y' ≤ 83) (hi : pixIndex x y = pixIndex x' y')
    (hb : pixBit x = pixBit x') : x = x' ∧ y = y' := by
  have hbank : pixBank x = pixBank x' := by rw [← pixIndex_div_cols x hy, hi, pixIndex_div_cols x' hy']
  constructor
  · rw [← pixBank_pixBit x, hbank, hb, pixBank_pixBit]
  · rw [← pixIndex_mod_cols x hy, hi, pixIndex_mod_cols x' hy']

/-- Bit `b` of byte `i` is the pixel at bit `b` of bank `i / 84`, in column `i % 84`. -/
theorem exists_pixel {i b : Nat} (hi : i ≤ 503) (hb : b ≤ 7) :
    ∃ x y, x ≤ 47 ∧ y ≤ 83 ∧ pixIndex x y = i ∧ pixBit x = b := by
  refine ⟨Config.bankH * (i / Config.cols) + b, i % Config.cols, ?_, ?_, ?_, ?_⟩ <;>
    simp only [pixIndex, pixBit, Config.bankH, Config.cols] <;> omega

/-- Settles O46: the definitions of R114 with their ranges, `pixel_ext` and `exists_pixel`. -/
theorem pixelMappingIsABijection : Obligations.PixelMappingIsABijection := by
  refine ⟨fun x y hx hy => ?_, fun x y x' y' _ hy _ hy' => pixel_ext hy hy', fun i b => exists_pixel⟩
  have hbank : pixBank x ≤ 5 := Nat.div_le_div_right (c := Config.bankH) hx
  have hindex : pixIndex x y < 504 := pixIndex_lt (validPix_iff.mpr ⟨hx, hy⟩)
  have hbit : pixBit x < 8 := Nat.mod_lt x (by decide)
  exact ⟨rfl, hbank, rfl, Nat.le_of_lt_succ hindex, rfl, Nat.le_of_lt_succ hbit, rfl⟩

/-- A cell's first byte is the byte of its corner pixel. -/
theorem textIndex_eq_pixIndex (row col : Nat) : textIndex row col = pixIndex (8 * row) (6 * col) := by
  rw [textIndex, pixIndex, Nat.mul_div_cancel_left row (by decide), Nat.mul_comm col]

/-- Settles O47: the corner pixel above, and the ranges at the largest row and column. -/
theorem textCellStartsAtItsCornerPixel : Obligations.TextCellStartsAtItsCornerPixel := by
  intro row col hrow hcol
  have hpx : textPx col ≤ 78 := Nat.mul_le_mul_right Config.cellW hcol
  have hindex : textIndex row col ≤ 498 :=
    Nat.add_le_add (Nat.mul_le_mul_right Config.cellW hcol) (Nat.mul_le_mul_right Config.cols hrow)
  exact ⟨Nat.mul_comm col 6, hpx, rfl, textIndex_eq_pixIndex row col, hindex, rfl⟩

end Sys2Proof.Machine

/-! PROOFS. The statements about the rasterizer (43_rasterizer.md): pixels are only ever turned on, what DRAWPIXEL and
DRAWLINE come to, and the points of a line, by a closed form of the line generator. -/

namespace Sys2Proof.Machine

/-! ### Lit pixels stay lit (R132) -/

/-- Every bit of `FB` that is set in `s` is set in `t`. -/
def State.KeepsLit (s t : State) : Prop := ∀ a b, (s.fbByte a).getLsbD b = true → (t.fbByte a).getLsbD b = true

theorem State.KeepsLit.of_fb {s t : State} (h : t.fb = s.fb) : s.KeepsLit t := fun a b hb => by
  rwa [State.fbByte_congr h]

theorem State.KeepsLit.refl (s : State) : s.KeepsLit s := .of_fb rfl

theorem State.KeepsLit.trans (s t u : State) (h : s.KeepsLit t) (h' : t.KeepsLit u) : s.KeepsLit u :=
  fun a b hb => h' a b (h a b hb)

/-- An action that is no indexed store keeps the cells or ORs into the byte at the cursor. -/
theorem OpFrame.keepsLit {op : Op} {s t : State} (h : OpFrame op s t) (hop : ∀ i v, op ≠ .memWrite i v) :
    s.KeepsLit t := by
  rcases h.fb with hfb | ⟨m, -, -, hfb⟩ | ⟨i, v, rfl, -⟩
  · exact .of_fb hfb
  · intro a b hb
    rw [State.fbByte_congr (s := { s with fb := s.fb.set s.cur (s.fbByte s.cur ||| m) }) hfb, State.fbByte_set]
    split
    next ha =>
      rw [ha] at hb
      rw [BitVec.getLsbD_or, hb, Bool.true_or]
    · exact hb
  · exact absurd rfl (hop i v)

theorem exec_keepsLit {i : Instr} {s t : State} (h : exec i s = .next t) (hi : i ≠ .clear) : s.KeepsLit t :=
  exec_rel .refl .trans (fun _ _ _ _ _ => .of_fb rfl) (fun _ => .of_fb rfl) (fun _ _ => .of_fb rfl)
    (fun _ hop _ _ hf => hf.keepsLit fun _ _ ho => hi (clear_of_mem_requestOps (ho ▸ hop))) h

/-- What is left of a held request stores through the cursor only. -/
theorem resume_keepsLit {p : Pending} {s t : State} (hw : s.Waiting p) (h : resume p s = .next t) : s.KeepsLit t := by
  rcases resume_cases h with ⟨u, _, _, hr, hu⟩ | ⟨_, rfl⟩
  · have sent : s.KeepsLit u := .of_fb (by rw [hu])
    exact .trans s u t sent (runOps_rel .refl .trans (fun _ _ _ _ => .of_fb rfl) p.rest
      (fun _ hop _ _ hg => (doOp_frame hg).keepsLit fun i v ho => safe_noMemWrite p.rest s.fi hw.rest i v (ho ▸ hop))
      u t hr)
  · exact .of_fb rfl

/-- Settles O41: of the five things a step can do, only a request and a poll act on `FB`, and neither unlights a pixel
unless the request is CLEAR. -/
theorem onlyClearTurnsPixelsOff : Obligations.OnlyClearTurnsPixelsOff := by
  refine ⟨fun s t h hs hclear => ?_, fun s t hs => ?_⟩
  · obtain ⟨hf, hr, hc⟩ := step_cases hs
    rcases hc with ⟨-, -, rfl⟩ | ⟨-, _, _, _, -, -, rfl⟩ | ⟨hi, w, later, i, hq, hd, he⟩ | ⟨-, p, hp, hp'⟩ | ⟨-, -, rfl⟩
    case inl | inr.inr.inr.inr => exact State.KeepsLit.refl t
    case inr.inl => exact State.KeepsLit.refl s
    case inr.inr.inl =>
      refine exec_keepsLit (s := { s with req := later }) he ?_
      rintro rfl
      exact hclear ⟨hi, hf, hr⟩ w later hq hd
    case inr.inr.inr.inl => exact resume_keepsLit (h.waiting p hp) hp'
  · obtain ⟨fb, he, hzero⟩ := exec_clear s
    cases he.symm.trans hs
    exact hzero

/-! ### Which bytes a drawing request stores to (R130, R131, R137) -/

theorem setsCurFirst_of_cons {op : Op} {rest : List Op} (h : setsCurFirst (op :: rest) = true) :
    (∃ n, op = .setCur n) ∨ setsCurFirst rest = true := by
  cases op with
  | setCur n => exact .inl ⟨n, rfl⟩
  | orAtCur m => simp [setsCurFirst] at h
  | _ => exact .inr h

/-- An action that is no indexed store leaves every byte but the one at the cursor. -/
theorem OpFrame.fbByte_eq {op : Op} {s t : State} {a : Nat} (h : OpFrame op s t) (hw : ∀ i v, op ≠ .memWrite i v)
    (ha : s.cur ≠ a ∨ ∀ m, op ≠ .orAtCur m) : t.fbByte a = s.fbByte a := by
  rcases h.fb with hfb | ⟨m, ho, -, hfb⟩ | ⟨i, v, ho, -⟩
  · exact State.fbByte_congr hfb a
  · have hcur : a ≠ s.cur := (ha.resolve_right fun h => h m ho).symm
    exact (State.fbByte_congr (s := { s with fb := s.fb.set s.cur (s.fbByte s.cur ||| m) }) hfb a).trans
      (State.fbByte_set_other s _ hcur)
  · exact absurd ho (hw i v)

/-- Once an action that may set the cursor is done, the cursor is off byte `a`, or the rest sets it before it stores. -/
theorem doOp_cur_ne {opc : Byte} {op : Op} {rest : List Op} {s u : State} {a : Nat} (hd : doOp opc op s = .ok u)
    (hflush : op ≠ .flushCur) (hset : ∀ n, op = .setCur n → n ≠ a)
    (hcur : s.cur ≠ a ∨ setsCurFirst (op :: rest) = true) : u.cur ≠ a ∨ setsCurFirst rest = true := by
  have frame := doOp_frame (.inl hd)
  rcases frame.cur with hc | ho | ⟨ho, -⟩
  · rcases hcur with hs | hs
    · exact .inl (hc ▸ hs)
    · rcases setsCurFirst_of_cons hs with ⟨n, rfl⟩ | hrest
      · cases hd
        exact .inl (hset n rfl)
      · exact .inr hrest
  · exact .inl (hset _ ho)
  · exact absurd ho hflush

/-- A run that never sets the cursor to byte `a`, and does not start there, leaves the byte. -/
theorem runOps_fbByte_eq {opc : Byte} {a : Nat} {ops : List Op} {s t : State} (hw : ∀ i v, .memWrite i v ∉ ops)
    (hflush : .flushCur ∉ ops) (hset : ∀ n, .setCur n ∈ ops → n ≠ a)
    (hcur : s.cur ≠ a ∨ setsCurFirst ops = true) (h : runOps opc ops s = .next t) : t.fbByte a = s.fbByte a := by
  induction ops generalizing s with
  | nil =>
    cases h
    rfl
  | cons op rest ih =>
    have here {u : State} (hg : (doOp opc op s).gives u) : u.fbByte a = s.fbByte a := by
      refine (doOp_frame hg).fbByte_eq (fun i v ho => hw i v (by simp [ho])) (hcur.imp_right fun hs m ho => ?_)
      simp [ho, setsCurFirst] at hs
    cases hd : doOp opc op s with
    | ok u =>
      rw [runOps_cons_ok hd] at h
      have later : t.fbByte a = u.fbByte a :=
        ih (fun i v hm => hw i v (.tail _ hm)) (fun hm => hflush (.tail _ hm)) (fun n hm => hset n (.tail _ hm))
          (doOp_cur_ne hd (fun ho => hflush (by simp [ho])) (fun n ho => hset n (by simp [ho])) hcur) h
      exact later.trans (here (.inl hd))
    | held k b u =>
      rw [runOps_cons_held hd] at h
      cases h
      exact here (u := u) (.inr (.inl ⟨k, b, hd⟩))
    | raised u =>
      rw [runOps_cons_raised hd] at h
      cases h
      exact here (.inr (.inr hd))
    | badIndex i => simp [runOps, hd] at h

/-- A request other than CLEAR and FLUSH leaves every byte that it does not set the cursor to. -/
theorem exec_fbByte_eq {i : Instr} {s t : State} {a : Nat} (hc : i ≠ .clear) (hf : i ≠ .flush)
    (hset : ∀ n, Instr.takes i (.setCur n) → n ≠ a) (h : exec i s = .next t) : t.fbByte a = s.fbByte a := by
  rcases exec_cases i s with ⟨-, -, he⟩ | he <;> rw [he] at h
  · cases h
    rfl
  · exact runOps_fbByte_eq (s := s.begin) (fun _ _ hm => hc (clear_of_mem_requestOps hm))
      (fun hm => hf (flush_of_mem_requestOps hm (.inl rfl)))
      (fun n hm => hset n ((mem_requestOps hm).resolve_left (by simp))) (.inr (setsCurFirst_requestOps i)) h

/-- Settles O33: both requests set the cursor to the bytes of their valid pixels only. -/
theorem drawingStoresOnlyAtItsPixels : Obligations.DrawingStoresOnlyAtItsPixels := by
  refine fun s t a => ⟨fun x y h ha => ?_, fun x1 x2 y1 y2 h ha => ?_⟩
  · refine exec_fbByte_eq (i := .drawpixel x y) nofun nofun (fun n hn => ?_) h
    obtain ⟨hv, rfl⟩ : validPix x y = true ∧ n = pixIndex x y := by simpa [Instr.takes] using hn
    exact (ha hv).symm
  · refine exec_fbByte_eq (i := .drawline x1 x2 y1 y2) nofun nofun (fun n hn => ?_) h
    obtain ⟨qx, qy, hq, rfl⟩ : ∃ qx qy, (qx, qy) ∈ plottedPixels x1 x2 y1 y2 ∧ n = pixIndex qx qy := by
      simpa [Instr.takes] using hn
    exact (ha (qx, qy) hq).symm

/-! ### DRAWPIXEL (R131) -/

/-- The bits of the framebuffer after `DrawPix` has ORed a pixel's bit into its byte (R130). -/
theorem fbByte_set_or_pixMask (s : State) (x y a : Nat) {b : Nat} (hb : b < 8) :
    (State.fbByte { s with fb := s.fb.set (pixIndex x y) (s.fbByte (pixIndex x y) ||| pixMask x) } a).getLsbD b =
      ((s.fbByte a).getLsbD b || (decide (a = pixIndex x y) && decide (b = pixBit x))) := by
  rw [State.fbByte_set]
  split
  next ha =>
    rw [BitVec.getLsbD_or, pixMask_getLsbD x b hb, ha, decide_eq_true rfl, Bool.true_and]
    rfl
  next ha => simp [ha]

/-- Settles O25: the drawn pixel, and the response. -/
theorem drawPixelLightsOnePixel : Obligations.DrawPixelLightsOnePixel := by
  intro s x y hx hy hb he
  have hv : validPix x y = true := validPix_iff.mpr ⟨hx, hy⟩
  refine ⟨_, ?_, fun a b hb => fbByte_set_or_pixMask s x y a hb⟩
  rw [exec_eq_request (by simp), request, requestOps, runOps_drawPix _ x y _ hv, runOps_respond]
  · simp [State.respond, State.begin, State.fbByte, hv, rangeStatus, pixIndex, pixBank]
  · exact hb
  · exact he

/-! ### DRAWLINE off the display and before INIT (R137, R138, R153) -/

/-- Settles O27: the plotting changes the working registers only, and the response follows. -/
theorem offScreenLineRespondsOk : Obligations.OffScreenLineRespondsOk := by
  intro s x1 x2 y1 y2 h
  rw [plottedPixels_eq] at h
  obtain ⟨r, hrun⟩ := runOps_plotNone 0x08 [.respond .ok] (lineTrace x1 x2 y1 y2) s.begin h
  exact ⟨r, hrun.trans (runOps_respond ..)⟩

/-- The points before the first on the display only move the working registers, whatever the bus and the engine; then
comes that point's bank command. -/
theorem runOps_plot_first (opc : Byte) (rest : List Op) {q : Nat × Nat} (trace : List LineRegs) (s : State)
    (h : (pixelsOf trace).head? = some q) : ∃ r rest', runOps opc (trace.flatMap plotOps ++ rest) s =
      runOps opc (.send .cmd (Config.cmdBank (q.1 / 8)) :: rest') { s with line := r } := by
  induction trace generalizing s with
  | nil => simp [pixelsOf] at h
  | cons r trace ih =>
    rw [pixelsOf_cons] at h
    rw [List.flatMap_cons, plotOps, List.cons_append, List.cons_append, List.append_assoc, runOps_cons_ok rfl]
    split at h
    next hv =>
      cases h
      rw [drawPixOps, pixPosOps, if_pos hv, if_pos hv]
      exact ⟨r, _, rfl⟩
    next hv =>
      rw [drawPixOps_invalid (by simpa using hv)]
      exact ih { s with line := r } h

/-- Settles O29: the bank command of the first point on the display finds the bus not configured. -/
theorem lineBeforeInitFaults : Obligations.LineBeforeInitFaults := by
  intro s x1 x2 y1 y2 q hb hq
  rw [plottedPixels_eq] at hq
  obtain ⟨r, rest, hrun⟩ := runOps_plot_first 0x08 [.respond .ok] (lineTrace x1 x2 y1 y2) s.begin hq
  exact ⟨r, hrun.trans (runOps_cons_raised (if_neg (by simp [hb])))⟩

/-! ### The share of a delta (R135, R136)

Point `k` of a line has moved along each axis by `k` of the `m` parts of that axis' delta, rounded; along the major axis,
whose delta is `m` itself, by `k`. The error term of the generator tells whether the next part rounds up. -/

/-- `d * k / m` rounded to the nearest number, a tie upwards. -/
def roundedShare (d m k : Nat) : Nat := (2 * (d * k) + m) / (2 * m)

/-- The error term of R135 after `k` turns, for the major delta `m` and the other delta `d`. -/
def shareError (d m k : Nat) : Int := (2 * (d * (k + 1)) : Nat) - (2 * (m * roundedShare d m k) + m : Nat)

theorem roundedShare_eq {d m k q : Nat} (hlow : 2 * (m * q) ≤ 2 * (d * k) + m)
    (hhigh : 2 * (d * k) + m < 2 * (m * q) + 2 * m) : roundedShare d m k = q :=
  Nat.div_eq_of_lt_le (by linarith) (by linarith)

theorem roundedShare_bounds (d k : Nat) {m : Nat} (hm : 0 < m) :
    2 * (m * roundedShare d m k) ≤ 2 * (d * k) + m ∧ 2 * (d * k) + m < 2 * (m * roundedShare d m k) + 2 * m := by
  have hdiv := Nat.div_add_mod (2 * (d * k) + m) (2 * m)
  have hmod := Nat.mod_lt (2 * (d * k) + m) (y := 2 * m) (by omega)
  rw [← roundedShare, Nat.mul_assoc] at hdiv
  omega

theorem roundedShare_comm (d m k : Nat) : roundedShare d m k = roundedShare k m d := by
  rw [roundedShare, Nat.mul_comm d, roundedShare]

@[simp] theorem roundedShare_zero (d m : Nat) : roundedShare d m 0 = 0 := by
  rcases Nat.eq_zero_or_pos m with rfl | hm
  · simp [roundedShare]
  · exact roundedShare_eq (by omega) (by omega)

@[simp] theorem roundedShare_zero_delta (m k : Nat) : roundedShare 0 m k = 0 := by
  rw [roundedShare_comm, roundedShare_zero]

/-- The major axis moves by one with each part. -/
theorem roundedShare_self {m k : Nat} (hk : k ≤ m) : roundedShare m m k = k := by
  rcases Nat.eq_zero_or_pos m with rfl | hm
  · simp [Nat.le_zero.mp hk]
  · exact roundedShare_eq (by omega) (by omega)

/-- All the parts are the whole delta. -/
theorem roundedShare_whole {d m : Nat} (hd : d ≤ m) : roundedShare d m m = d := by
  rw [roundedShare_comm, roundedShare_self hd]

theorem roundedShare_le {d m k : Nat} (hd : d ≤ m) (hk : k ≤ m) : roundedShare d m k ≤ d :=
  calc roundedShare d m k ≤ roundedShare d m m := Nat.div_le_div_right (by gcongr)
    _ = d := roundedShare_whole hd

/-- The sign of the error term says whether the next share is one more. -/
theorem roundedShare_succ {d m : Nat} (k : Nat) (hd : d ≤ m) (hm : 0 < m) :
    roundedShare d m (k + 1) = if 0 ≤ shareError d m k then roundedShare d m k + 1 else roundedShare d m k := by
  obtain ⟨hlow, hhigh⟩ := roundedShare_bounds d k hm
  have hk : d * (k + 1) = d * k + d := Nat.mul_succ d k
  have hq : m * (roundedShare d m k + 1) = m * roundedShare d m k + m := Nat.mul_succ ..
  split
  next he =>
    rw [shareError] at he
    exact roundedShare_eq (by omega) (by omega)
  next he =>
    rw [shareError] at he
    exact roundedShare_eq (by omega) (by omega)

/-- One turn's change of the error term (R135). -/
theorem shareError_succ {d m : Nat} (k : Nat) (hd : d ≤ m) (hm : 0 < m) : shareError d m (k + 1) =
    if 0 ≤ shareError d m k then shareError d m k - 2 * m + 2 * d else shareError d m k + 2 * d := by
  rw [shareError, roundedShare_succ k hd hm]
  split <;> simp only [shareError, Nat.mul_succ] <;> omega

theorem shareError_self {m k : Nat} (hk : k ≤ m) : shareError m m k = m := by
  rw [shareError, roundedShare_self hk, Nat.mul_succ]
  omega

theorem shareError_zero_delta (m k : Nat) : shareError 0 m k = -m := by
  simp [shareError]

/-- The error term for deltas of 8 bits (R140). Between the straight and the diagonal line it lies in the interval from
`2 * d - 2 * m` up to `2 * d`, and it has the parity of `m`. -/
theorem shareError_range {d m k : Nat} (hd : d ≤ m) (hk : k ≤ m) (hm : m ≤ 255) :
    -507 ≤ shareError d m k ∧ shareError d m k ≤ 507 := by
  rcases Nat.eq_zero_or_pos d with rfl | hpos
  · rw [shareError_zero_delta]
    omega
  rcases Nat.eq_or_lt_of_le hd with rfl | hlt
  · rw [shareError_self hk]
    omega
  · have hbounds := roundedShare_bounds d k (Nat.zero_lt_of_lt hlt)
    rw [shareError, Nat.mul_succ]
    omega

/-- Where no share is a tie, the share of some parts and the share of the others make the delta. For an odd `m` a tie is
impossible by parity. -/
theorem roundedShare_add {d m k l : Nat} (hkl : k + l = m) (hd : d ≤ m) (htie : m % 2 = 1 ∨ d = 0 ∨ d = m) :
    roundedShare d m k + roundedShare d m l = d := by
  rcases htie with hodd | rfl | rfl
  · obtain ⟨hlow, hhigh⟩ := roundedShare_bounds d k (m := m) (by omega)
    have hle := roundedShare_le hd (k := k) (by omega)
    have hdk : d * k + d * l = m * d := by rw [← Nat.mul_add, hkl, Nat.mul_comm]
    have hq : m * (d - roundedShare d m k) + m * roundedShare d m k = m * d := by
      rw [← Nat.mul_add, Nat.sub_add_cancel hle]
    rw [roundedShare_eq (d := d) (k := l) (q := d - roundedShare d m k) (by omega) (by omega), Nat.add_sub_cancel' hle]
  · simp
  · rw [roundedShare_self (by omega), roundedShare_self (by omega), hkl]

/-! ### The line generator in closed form (R134-R136) -/

/-- The unit step of a delta has absolute value 1. -/
theorem natAbs_unitStep (e : Int) : (unitStep e).natAbs = 1 := by
  unfold unitStep
  split <;> rfl

/-- Where the line from `a` to `b` stands on this axis at point `k`, for the major delta `m`. -/
def coordAt (a b m k : Nat) : Int := a + unitStep ((b : Int) - a) * roundedShare ((b : Int) - a).natAbs m k

theorem unitStep_mul_natAbs (e : Int) : unitStep e * e.natAbs = e := by
  unfold unitStep
  split <;> omega

@[simp] theorem coordAt_zero (a b m : Nat) : coordAt a b m 0 = a := by simp [coordAt]

theorem coordAt_whole {a b m : Nat} (hd : ((b : Int) - a).natAbs ≤ m) : coordAt a b m m = b := by
  rw [coordAt, roundedShare_whole hd, unitStep_mul_natAbs]
  omega

theorem natAbs_coordAt_sub (a b m k : Nat) :
    (coordAt a b m k - a).natAbs = roundedShare ((b : Int) - a).natAbs m k := by
  rw [coordAt, add_sub_cancel_left, Int.natAbs_mul, natAbs_unitStep, Nat.one_mul, Int.natAbs_natCast]

/-- One more part moves the coordinate by its unit step where the error term is not negative. -/
theorem coordAt_succ {a b m : Nat} (k : Nat) (hd : ((b : Int) - a).natAbs ≤ m) (hm : 0 < m) :
    coordAt a b m (k + 1) = if 0 ≤ shareError ((b : Int) - a).natAbs m k then
      coordAt a b m k + unitStep ((b : Int) - a) else coordAt a b m k := by
  simp only [coordAt, roundedShare_succ k hd hm]
  split
  · push_cast
    ring
  · rfl

theorem coordAt_succ_eq_or {a b m : Nat} (k : Nat) (hd : ((b : Int) - a).natAbs ≤ m) (hm : 0 < m) :
    coordAt a b m (k + 1) = coordAt a b m k ∨ coordAt a b m (k + 1) = coordAt a b m k + unitStep ((b : Int) - a) := by
  rw [coordAt_succ k hd hm]
  split
  · exact .inr rfl
  · exact .inl rfl

theorem coordAt_succ_major {a b m k : Nat} (hd : ((b : Int) - a).natAbs = m) (hk : k < m) :
    coordAt a b m (k + 1) = coordAt a b m k + unitStep ((b : Int) - a) := by
  rw [coordAt_succ k hd.le (Nat.zero_lt_of_lt hk), hd, shareError_self hk.le, if_pos (Int.natCast_nonneg m)]

/-- The major coordinate is another one at every point. -/
theorem coordAt_inj_major {a b m k l : Nat} (hd : ((b : Int) - a).natAbs = m) (hk : k ≤ m) (hl : l ≤ m)
    (h : coordAt a b m k = coordAt a b m l) : k = l := by
  have hsub := natAbs_coordAt_sub a b m k
  rw [h, natAbs_coordAt_sub, hd, roundedShare_self hk, roundedShare_self hl] at hsub
  exact hsub.symm

/-- The major coordinate comes to its end at the last point, not before. -/
theorem coordAt_ne_end {a b m k : Nat} (hd : ((b : Int) - a).natAbs = m) (hk : k < m) : coordAt a b m k ≠ b :=
  fun h => hk.ne (coordAt_inj_major hd hk.le le_rfl (h.trans (coordAt_whole hd.le).symm))

theorem coordAt_box {a b m k : Nat} (hd : ((b : Int) - a).natAbs ≤ m) (hk : k ≤ m) :
    min (a : Int) b ≤ coordAt a b m k ∧ coordAt a b m k ≤ max (a : Int) b := by
  have hle := roundedShare_le hd hk
  unfold coordAt unitStep
  split <;> omega

/-- Where no share is a tie, the line from the other end stands at the same coordinate at the point opposite. -/
theorem coordAt_swap {a b m k l : Nat} (hkl : k + l = m) (hd : ((b : Int) - a).natAbs ≤ m)
    (htie : m % 2 = 1 ∨ ((b : Int) - a).natAbs = 0 ∨ ((b : Int) - a).natAbs = m) :
    coordAt b a m k = coordAt a b m l := by
  have hadd := roundedShare_add hkl hd htie
  have hswap : ((a : Int) - b).natAbs = ((b : Int) - a).natAbs := by omega
  rw [coordAt, hswap, coordAt]
  unfold unitStep
  split <;> split <;> omega

/-- The major delta of a line. -/
def majorDelta (x1 x2 y1 y2 : Nat) : Nat := max ((x2 : Int) - x1).natAbs ((y2 : Int) - y1).natAbs

/-- The working registers at point `k` of a line. -/
def lineRegsAt (x1 x2 y1 y2 k : Nat) : LineRegs :=
  { lineStart x1 x2 y1 y2 with
    lx := coordAt x1 x2 (majorDelta x1 x2 y1 y2) k
    ly := coordAt y1 y2 (majorDelta x1 x2 y1 y2) k
    ld := if ((y2 : Int) - y1).natAbs < ((x2 : Int) - x1).natAbs then
        shareError ((y2 : Int) - y1).natAbs (majorDelta x1 x2 y1 y2) k
      else -shareError ((x2 : Int) - x1).natAbs (majorDelta x1 x2 y1 y2) k }

section
variable {x1 x2 y1 y2 k : Nat}

@[simp] theorem lineRegsAt_lx : (lineRegsAt x1 x2 y1 y2 k).lx = coordAt x1 x2 (majorDelta x1 x2 y1 y2) k := rfl
@[simp] theorem lineRegsAt_ly : (lineRegsAt x1 x2 y1 y2 k).ly = coordAt y1 y2 (majorDelta x1 x2 y1 y2) k := rfl
@[simp] theorem lineRegsAt_lax : (lineRegsAt x1 x2 y1 y2 k).lax = ((x2 : Int) - x1).natAbs := rfl
@[simp] theorem lineRegsAt_lay : (lineRegsAt x1 x2 y1 y2 k).lay = ((y2 : Int) - y1).natAbs := rfl

theorem majorDelta_of_shallow (hs : ((y2 : Int) - y1).natAbs < ((x2 : Int) - x1).natAbs) :
    majorDelta x1 x2 y1 y2 = ((x2 : Int) - x1).natAbs := max_eq_left hs.le

theorem majorDelta_of_steep (hs : ¬((y2 : Int) - y1).natAbs < ((x2 : Int) - x1).natAbs) :
    majorDelta x1 x2 y1 y2 = ((y2 : Int) - y1).natAbs := max_eq_right (not_lt.mp hs)

theorem natAbs_le_majorDelta_left : ((x2 : Int) - x1).natAbs ≤ majorDelta x1 x2 y1 y2 := le_max_left ..

theorem natAbs_le_majorDelta_right : ((y2 : Int) - y1).natAbs ≤ majorDelta x1 x2 y1 y2 := le_max_right ..

theorem lineRegsAt_zero : lineRegsAt x1 x2 y1 y2 0 = lineStart x1 x2 y1 y2 := by
  by_cases hs : ((y2 : Int) - y1).natAbs < ((x2 : Int) - x1).natAbs
  · simp only [lineRegsAt, lineStart, Nat.cast_lt, hs, if_true, majorDelta_of_shallow hs]
    simp [shareError]
  · simp only [lineRegsAt, lineStart, Nat.cast_lt, hs, if_false, majorDelta_of_steep hs]
    simp [shareError]

/-- A turn of the shallow branch goes on to the next point (R135). -/
theorem shallowStep_lineRegsAt (hs : ((y2 : Int) - y1).natAbs < ((x2 : Int) - x1).natAbs)
    (hk : k < majorDelta x1 x2 y1 y2) : shallowStep (lineRegsAt x1 x2 y1 y2 k) = lineRegsAt x1 x2 y1 y2 (k + 1) := by
  have hm := majorDelta_of_shallow hs
  have hpos := Nat.zero_lt_of_lt hk
  simp only [shallowStep, lineRegsAt, lineStart, if_pos hs, coordAt_succ_major hm.symm hk,
    coordAt_succ k natAbs_le_majorDelta_right hpos, shareError_succ k natAbs_le_majorDelta_right hpos]
  split <;> simp [hm]

/-- A turn of the steep branch goes on to the next point (R136). -/
theorem steepStep_lineRegsAt (hs : ¬((y2 : Int) - y1).natAbs < ((x2 : Int) - x1).natAbs)
    (hk : k < majorDelta x1 x2 y1 y2) : steepStep (lineRegsAt x1 x2 y1 y2 k) = lineRegsAt x1 x2 y1 y2 (k + 1) := by
  have hm := majorDelta_of_steep hs
  have hpos := Nat.zero_lt_of_lt hk
  simp only [steepStep, lineRegsAt, lineStart, if_neg hs, coordAt_succ_major hm.symm hk,
    coordAt_succ k natAbs_le_majorDelta_left hpos, shareError_succ k natAbs_le_majorDelta_left hpos, neg_nonpos]
  split <;> simp [hm] <;> omega

end

/-- A loop whose turn leads from each value of `f` to the next gives the values of `f` in order. -/
theorem loop_eq_map_range' {loop : Nat → LineRegs → List LineRegs} {f : Nat → LineRegs} {n : Nat}
    (hstop : ∀ r, loop 0 r = [])
    (hturn : ∀ fuel k, k < n → loop (fuel + 1) (f k) = f (k + 1) :: loop fuel (f (k + 1))) :
    ∀ fuel k, k + fuel ≤ n → loop fuel (f k) = (List.range' (k + 1) fuel).map f
  | 0, k, _ => hstop (f k)
  | fuel + 1, k, h => by
    rw [hturn fuel k (by omega), loop_eq_map_range' hstop hturn fuel (k + 1) (by omega), List.range'_succ,
      List.map_cons]

/-- The generator's points in closed form: the loop of either branch runs through `lineRegsAt`. -/
theorem lineTrace_eq (x1 x2 y1 y2 : Nat) :
    lineTrace x1 x2 y1 y2 = (List.range (majorDelta x1 x2 y1 y2 + 1)).map (lineRegsAt x1 x2 y1 y2) := by
  rw [lineTrace, ← lineRegsAt_zero, List.range_eq_range', List.range'_succ, List.map_cons]
  simp only [lineRegsAt_lax, lineRegsAt_lay, Int.toNat_natCast, Nat.cast_lt]
  split
  next hs =>
    have hm := majorDelta_of_shallow hs
    rw [← hm, loop_eq_map_range' (loop := shallowLoop x2) (n := majorDelta x1 x2 y1 y2) (fun _ => rfl) ?_ _ _
      (by omega)]
    intro fuel k hk
    rw [shallowLoop, lineRegsAt_lx, if_neg (coordAt_ne_end hm.symm hk), shallowStep_lineRegsAt hs hk]
  next hs =>
    have hm := majorDelta_of_steep hs
    rw [← hm, loop_eq_map_range' (loop := steepLoop y2) (n := majorDelta x1 x2 y1 y2) (fun _ => rfl) ?_ _ _
      (by omega)]
    intro fuel k hk
    rw [steepLoop, lineRegsAt_ly, if_neg (coordAt_ne_end hm.symm hk), steepStep_lineRegsAt hs hk]

/-- Point `k` of a line. -/
def linePointAt (x1 x2 y1 y2 k : Nat) : Int × Int :=
  (coordAt x1 x2 (majorDelta x1 x2 y1 y2) k, coordAt y1 y2 (majorDelta x1 x2 y1 y2) k)

theorem linePoints_eq (x1 x2 y1 y2 : Nat) :
    linePoints x1 x2 y1 y2 = (List.range (majorDelta x1 x2 y1 y2 + 1)).map (linePointAt x1 x2 y1 y2) := by
  rw [linePoints, lineTrace_eq, List.map_map]
  rfl

/-! ### The points of a line (R139, R140, R142) -/

/-- Settles O48: the first and the last value of the closed form. -/
theorem lineHasItsEndpoints : Obligations.LineHasItsEndpoints := by
  intro x1 x2 y1 y2
  rw [linePoints_eq]
  refine ⟨?_, ?_, ?_⟩
  · rw [List.length_map, List.length_range, majorDelta]
  · simp [List.head?_range, linePointAt]
  · simp [List.getLast?_range, linePointAt, coordAt_whole natAbs_le_majorDelta_left,
      coordAt_whole natAbs_le_majorDelta_right]

/-- Two points of a line differ in the major coordinate. -/
theorem linePointAt_inj {x1 x2 y1 y2 k l : Nat} (hk : k ≤ majorDelta x1 x2 y1 y2) (hl : l ≤ majorDelta x1 x2 y1 y2)
    (h : linePointAt x1 x2 y1 y2 k = linePointAt x1 x2 y1 y2 l) : k = l := by
  obtain ⟨hx, hy⟩ := Prod.mk.inj h
  by_cases hs : ((y2 : Int) - y1).natAbs < ((x2 : Int) - x1).natAbs
  · exact coordAt_inj_major (majorDelta_of_shallow hs).symm hk hl hx
  · exact coordAt_inj_major (majorDelta_of_steep hs).symm hk hl hy

/-- Settles O49: the major coordinate takes each part's step, and the other takes it or not. -/
theorem lineStepsByOneAlongItsMajorAxis : Obligations.LineStepsByOneAlongItsMajorAxis := by
  intro x1 x2 y1 y2
  rw [linePoints_eq]
  constructor
  · rw [List.isChain_map, List.isChain_range_succ]
    intro k hk
    split
    next hs =>
      exact ⟨coordAt_succ_major (majorDelta_of_shallow hs).symm hk,
        coordAt_succ_eq_or k natAbs_le_majorDelta_right (Nat.zero_lt_of_lt hk)⟩
    next hs =>
      exact ⟨coordAt_succ_major (majorDelta_of_steep hs).symm hk,
        coordAt_succ_eq_or k natAbs_le_majorDelta_left (Nat.zero_lt_of_lt hk)⟩
  · exact List.Nodup.map_on (fun k hk l hl => linePointAt_inj (Nat.le_of_lt_succ (List.mem_range.mp hk))
      (Nat.le_of_lt_succ (List.mem_range.mp hl))) List.nodup_range

/-- The registers at a plotted point are those of the closed form. -/
theorem exists_of_mem_lineTrace {x1 x2 y1 y2 : Nat} {r : LineRegs} (h : r ∈ lineTrace x1 x2 y1 y2) :
    ∃ k ≤ majorDelta x1 x2 y1 y2, r = lineRegsAt x1 x2 y1 y2 k := by
  rw [lineTrace_eq] at h
  obtain ⟨k, hk, rfl⟩ := List.mem_map.mp h
  exact ⟨k, Nat.le_of_lt_succ (List.mem_range.mp hk), rfl⟩

/-- Both coordinates of a plotted point lie between their ends. -/
theorem lineRegs_box {x1 x2 y1 y2 : Nat} {r : LineRegs} (h : r ∈ lineTrace x1 x2 y1 y2) :
    (min (x1 : Int) x2 ≤ r.lx ∧ r.lx ≤ max (x1 : Int) x2) ∧ min (y1 : Int) y2 ≤ r.ly ∧ r.ly ≤ max (y1 : Int) y2 := by
  obtain ⟨k, hk, rfl⟩ := exists_of_mem_lineTrace h
  exact ⟨coordAt_box natAbs_le_majorDelta_left hk, coordAt_box natAbs_le_majorDelta_right hk⟩

/-- Settles O50: the box of every plotted point. -/
theorem lineStaysInItsBox : Obligations.LineStaysInItsBox := by
  intro x1 x2 y1 y2 p hp
  obtain ⟨r, hr, rfl⟩ := List.mem_map.mp hp
  exact and_assoc.mp (lineRegs_box hr)

/-- A coordinate is its start, moved in its direction by the coordinate of the line from 0 over the same delta. -/
theorem coordAt_eq_mirror (a b m k : Nat) :
    coordAt a b m k = a + unitStep ((b : Int) - a) * coordAt 0 ((b : Int) - a).natAbs m k := by
  have hup (n : Nat) : unitStep n = 1 := if_neg (by omega)
  have hfrom : coordAt 0 ((b : Int) - a).natAbs m k = roundedShare ((b : Int) - a).natAbs m k := by
    rw [coordAt, Nat.cast_zero, sub_zero, hup, one_mul, zero_add, Int.natAbs_natCast]
  rw [hfrom, coordAt]

/-- Settles O51: both lines have the same major delta, and each coordinate is mirrored. -/
theorem lineDirectionsMirror : Obligations.LineDirectionsMirror := by
  intro x1 x2 y1 y2
  have hm : majorDelta 0 ((x2 : Int) - x1).natAbs 0 ((y2 : Int) - y1).natAbs = majorDelta x1 x2 y1 y2 := by
    simp only [majorDelta, Nat.cast_zero, sub_zero, Int.natAbs_natCast]
  rw [linePoints_eq, linePoints_eq, List.map_map, hm]
  exact List.map_congr_left fun k _ => Prod.ext (coordAt_eq_mirror x1 x2 _ k) (coordAt_eq_mirror y1 y2 _ k)

/-- Settles O52: the deltas, the range of the error term, and the box. -/
theorem lineErrorTermFitsTenBits : Obligations.LineErrorTermFitsTenBits := by
  intro x1 x2 y1 y2 hx1 hx2 hy1 hy2
  refine ⟨by omega, fun r hr => ?_⟩
  have hbox := lineRegs_box hr
  obtain ⟨k, hk, rfl⟩ := exists_of_mem_lineTrace hr
  have hld : -507 ≤ (lineRegsAt x1 x2 y1 y2 k).ld ∧ (lineRegsAt x1 x2 y1 y2 k).ld ≤ 507 := by
    have hm : majorDelta x1 x2 y1 y2 ≤ 255 := by
      rw [majorDelta]
      omega
    have hx := shareError_range (d := ((x2 : Int) - x1).natAbs) natAbs_le_majorDelta_left hk hm
    have hy := shareError_range (d := ((y2 : Int) - y1).natAbs) natAbs_le_majorDelta_right hk hm
    simp only [lineRegsAt]
    split <;> omega
  rw [lineRegsAt_lax, lineRegsAt_lay]
  omega

/-- Settles O54: point `k` from one end is point `m - k` from the other. -/
theorem lineIsSymmetricWhenItsMajorDeltaIsOdd : Obligations.LineIsSymmetricWhenItsMajorDeltaIsOdd := by
  intro x1 x2 y1 y2 h
  have hm : majorDelta x2 x1 y2 y1 = majorDelta x1 x2 y1 y2 := by
    simp only [majorDelta]
    omega
  have hpoint {k l : Nat} (hkl : k + l = majorDelta x1 x2 y1 y2) :
      linePointAt x2 x1 y2 y1 k = linePointAt x1 x2 y1 y2 l := by
    rw [linePointAt, hm, coordAt_swap hkl natAbs_le_majorDelta_left (by rw [majorDelta]; omega),
      coordAt_swap hkl natAbs_le_majorDelta_right (by rw [majorDelta]; omega), linePointAt]
  rw [linePoints_eq, linePoints_eq, hm, ← List.map_reverse, List.range_eq_range', List.reverse_range', List.map_map,
    ← List.range_eq_range']
  refine List.map_congr_left fun k hk => hpoint ?_
  have hkm := List.mem_range.mp hk
  show k + (0 + (majorDelta x1 x2 y1 y2 + 1) - 1 - k) = majorDelta x1 x2 y1 y2
  omega

/-- Settles O53, by the evaluation of both lines. -/
theorem lineIsNotSymmetric : Obligations.LineIsNotSymmetric := ⟨by decide, by decide⟩

end Sys2Proof.Machine

/-! PROOFS. The statements about the exceptions (60_exceptions.md): the out-of-range response, the fault of a Send before
INIT, that a fault is final, and that a step records one on its grounds only. -/

namespace Sys2Proof.Machine

/-! ### The stop after a fault (R154) -/

/-- A block with a recorded fault stops with its record. -/
theorem step_faulted {s : State} {r : FaultRecord} (hf : s.fault = some r) : step s = .fault (.stopped r) := by
  simp [step, hf]

/-- Settles O13: a ready block and a good end have no fault recorded. -/
theorem faultIsFinal : Obligations.FaultIsFinal := by
  intro s r hf
  refine ⟨step_faulted hf, ?_, fun n => ?_⟩
  · rintro ⟨-, hnone, -⟩
    cases hf.symm.trans hnone
  · rintro ⟨-, -, hnone, -⟩
    cases hf.symm.trans hnone

/-! ### The out-of-range response (R117, R152) -/

/-- A request whose one action is its response. -/
theorem exec_of_respond {i : Instr} {r : Response} (s : State) (hi : i ≠ .init) (ho : requestOps i = [.respond r]) :
    exec i s = .next { s with phase := .idle, pending := none, ri := s.ri + 1, hist := s.hist ++ [.rsp r] } := by
  rw [exec_eq_request fun h => absurd h hi, ho, request, runOps_respond]
  rfl

theorem validCell_eq_false {row col : Nat} (h : 6 ≤ row ∨ 14 ≤ col) : validCell row col = false := by
  rw [Bool.eq_false_iff, Ne, validCell_iff]
  omega

theorem validPix_eq_false {x y : Nat} (h : 48 ≤ x ∨ 84 ≤ y) : validPix x y = false := by
  rw [Bool.eq_false_iff, Ne, validPix_iff]
  omega

/-- Settles O23: a failed range check leaves no action but the response. -/
theorem outOfRangeIsANoOp : Obligations.OutOfRangeIsANoOp := by
  intro s i h
  cases i with
  | settextpos row col =>
    exact exec_of_respond s nofun (by simp [requestOps, textPosOps, validCell_eq_false h, rangeStatus])
  | setpixpos x y => exact exec_of_respond s nofun (by simp [requestOps, pixPosOps, validPix_eq_false h, rangeStatus])
  | drawpixel x y =>
    exact exec_of_respond s nofun (by simp [requestOps, drawPixOps_invalid (validPix_eq_false h), validPix_eq_false h,
      rangeStatus])
  | send | init | clear | flush | drawline => exact h.elim

/-! ### A Send before INIT (R153) -/

/-- A request whose first action is a Send, with the bus not configured. -/
theorem exec_busNotReady_of_head {s : State} {i : Instr} {k : Kind} {b : Byte} (hb : s.busReady = false)
    (hi : i ≠ .init) (ho : (requestOps i).head? = some (.send k b)) :
    exec i s = .next { s with phase := .busy, pending := none, fault := some (.busNotReady s.ri i.opcode k b) } := by
  obtain ⟨rest, ho⟩ := List.head?_eq_some_iff.mp ho
  rw [exec_eq_request fun h => absurd h hi, request, ho]
  exact runOps_cons_raised (if_neg (by simp [hb]))

/-- Settles O28: the first action of each of these requests is the Send. -/
theorem sendBeforeInitFaults : Obligations.SendBeforeInitFaults := by
  intro s i k b hb h
  cases i with
  | send =>
    obtain ⟨rfl, rfl⟩ := h
    exact exec_busNotReady_of_head hb nofun rfl
  | flush =>
    obtain ⟨rfl, rfl⟩ := h
    exact exec_busNotReady_of_head hb nofun rfl
  | settextpos row col =>
    obtain ⟨hrow, hcol, rfl, rfl⟩ := h
    exact exec_busNotReady_of_head hb nofun (by simp [requestOps, textPosOps, posCmds, validCell_iff, hrow, hcol])
  | setpixpos x y | drawpixel x y =>
    obtain ⟨hx, hy, rfl, rfl⟩ := h
    exact exec_busNotReady_of_head hb nofun
      (by simp [requestOps, drawPixOps, pixPosOps, posCmds, validPix_iff, hx, hy, pixBank])
  | init | clear | drawline => exact h.elim

/-! ### The grounds of a fault (R153, R154) -/

/-- What a request leaves whose first Send found the bus not configured: DRAWLINE may have moved its working registers;
besides those there are the phase and the record. -/
def State.BusNotReadyFault (s : State) (i : Instr) (t : State) : Prop :=
  ∃ k b r, t = { s with
    line := r, phase := .busy, pending := none, fault := some (.busNotReady s.ri i.opcode k b) }

/-- With the bus not configured, a request other than INIT comes to a Send, or to its end without one. -/
theorem exec_busNotReady {s : State} {i : Instr} (hb : s.busReady = false) (hi : i ≠ .init) :
    ∃ t, exec i s = .next t ∧ (t.fault = s.fault ∨ (i ≠ .clear ∧ s.BusNotReadyFault i t)) := by
  cases i with
  | init => exact absurd rfl hi
  | clear =>
    obtain ⟨fb, he, -⟩ := exec_clear s
    exact ⟨_, he, .inl rfl⟩
  | send k b => exact ⟨_, sendBeforeInitFaults s (.send k b) k b hb ⟨rfl, rfl⟩, .inr ⟨nofun, k, b, s.line, rfl⟩⟩
  | flush => exact ⟨_, sendBeforeInitFaults s .flush _ _ hb ⟨rfl, rfl⟩, .inr ⟨nofun, _, _, s.line, rfl⟩⟩
  | settextpos row col =>
    by_cases hv : row ≤ 5 ∧ col ≤ 13
    · exact ⟨_, sendBeforeInitFaults s (.settextpos row col) _ _ hb ⟨hv.1, hv.2, rfl, rfl⟩,
        .inr ⟨nofun, _, _, s.line, rfl⟩⟩
    · have hout : 6 ≤ row ∨ 14 ≤ col := by omega
      exact ⟨_, outOfRangeIsANoOp s (.settextpos row col) hout, .inl rfl⟩
  | setpixpos x y | drawpixel x y =>
    by_cases hv : x ≤ 47 ∧ y ≤ 83
    · exact ⟨_, sendBeforeInitFaults s _ _ _ hb ⟨hv.1, hv.2, rfl, rfl⟩, .inr ⟨nofun, _, _, s.line, rfl⟩⟩
    · have hout : 48 ≤ x ∨ 84 ≤ y := by omega
      exact ⟨_, outOfRangeIsANoOp s _ hout, .inl rfl⟩
  | drawline x1 x2 y1 y2 =>
    match hq : plottedPixels x1 x2 y1 y2 with
    | [] =>
      obtain ⟨r, he⟩ := offScreenLineRespondsOk s x1 x2 y1 y2 hq
      exact ⟨_, he, .inl rfl⟩
    | q :: later =>
      obtain ⟨r, he⟩ := lineBeforeInitFaults s x1 x2 y1 y2 q hb (by rw [hq, List.head?_cons])
      exact ⟨_, he, .inr ⟨nofun, _, _, r, rfl⟩⟩

/-- A first INIT records no fault: it configures the bus before it sends (R102). -/
theorem exec_init_noFault {s t : State} (hd : s.initDone = false) (hf : s.fault = none)
    (h : exec .init s = .next t) : t.fault = none := by
  rw [exec_eq_request fun _ => hd, request, requestOps, List.append_assoc, runOps_resetPulse] at h
  refine runOps_noFault _ _ _ t ?_ ?_ h
  · rfl
  · exact hf

/-- The two grounds on which a request records a fault: it is a second INIT, or it sends before INIT. -/
theorem exec_fault_cases {s t : State} {i : Instr} {f : FaultRecord} (hf : s.fault = none)
    (h : exec i s = .next t) (ht : t.fault = some f) :
    (i = .init ∧ s.initDone = true ∧ t = s.begin.raiseFault (.reinit s.ri)) ∨
    (s.busReady = false ∧ i ≠ .init ∧ i ≠ .clear ∧ s.BusNotReadyFault i t) := by
  have faulted : t.fault ≠ none := by simp [ht]
  by_cases hi : i = .init
  · subst hi
    rcases Bool.eq_false_or_eq_true s.initDone with hd | hd
    · cases (exec_init_again hd).symm.trans h
      exact .inl ⟨rfl, hd, rfl⟩
    · exact absurd (exec_init_noFault hd hf h) faulted
  rcases Bool.eq_false_or_eq_true s.busReady with hb | hb
  · rw [exec_eq_request fun h => absurd h hi] at h
    exact absurd (runOps_noFault _ _ s.begin t hb hf h) faulted
  · obtain ⟨u, hu, hend⟩ := exec_busNotReady hb hi
    cases hu.symm.trans h
    rcases hend with hnone | ⟨hc, hend⟩
    · exact absurd (hnone.trans hf) faulted
    · exact .inr ⟨hb, hi, hc, hend⟩

/-- A held request records no fault: the bus is configured (R153). -/
theorem resume_noFault {p : Pending} {s t : State} (hw : s.Waiting p) (h : resume p s = .next t) : t.fault = none := by
  rcases resume_cases h with ⟨u, _, _, hr, hu⟩ | ⟨_, rfl⟩
  · exact runOps_noFault p.opc p.rest u t (by rw [hu]; exact hw.busReady) (by rw [hu]; exact hw.noFault) hr
  · exact hw.noFault

/-- Settles O42: of the five things a step can do, only the execution of a word's request records a fault. -/
theorem faultsAreRecordedOnlyOnTheirGrounds : Obligations.FaultsAreRecordedOnlyOnTheirGrounds := by
  intro s t f h hs ht
  obtain ⟨hf, -, hc⟩ := step_cases hs
  have faulted : t.fault ≠ none := by simp [ht]
  rcases hc with ⟨-, -, rfl⟩ | ⟨-, _, _, _, -, -, rfl⟩ | ⟨-, w, later, i, hq, hd, he⟩ | ⟨-, p, hp, hr⟩ | ⟨-, -, rfl⟩
  case inl | inr.inl | inr.inr.inr.inr => exact absurd hf faulted
  case inr.inr.inr.inl => exact absurd (resume_noFault (h.waiting p hp) hr) faulted
  case inr.inr.inl =>
    rcases exec_fault_cases (s := { s with req := later }) hf he ht with
      ⟨hi, hdone, rfl⟩ | ⟨hb, hi, hclear, k, b, r, rfl⟩ <;> cases ht
    · exact ⟨⟨w, later, i, hq, hd, rfl, hdone, hi⟩, rfl, rfl, rfl, fun _ => rfl⟩
    · exact ⟨⟨w, later, i, hq, hd, rfl, hb, rfl, hi, hclear⟩, rfl, rfl, rfl, fun _ => rfl⟩

end Sys2Proof.Machine

/-! PROOFS. The statements about reset (70_reset_and_hazards.md): the values the spec states, and the invariant from
which every run begins. -/

namespace Sys2Proof.Machine

/-! ### The state after reset (R20, R170, R171) -/

/-- R21: a byte that no request has written is its reset draw. -/
theorem State.fbByte_of_unlisted {s : State} {i : Nat} (h : s.fb.get? i = none) :
    s.fbByte i = Config.fbReset i := by
  rw [State.fbByte, h, Option.getD_none]

@[simp] theorem State.fbByte_reset (i : Nat) : State.reset.fbByte i = Config.fbReset i :=
  State.fbByte_of_unlisted (Memory.get?_nil i)

/-- R171: the block is ready for its first request. -/
theorem State.reset_reqReady : State.reset.reqReady := ⟨rfl, rfl, rfl⟩

/-- No line has been written, so the empty record is whole envelopes for the empty history (R92). -/
theorem State.reset_settled : State.reset.Settled where
  sceN := rfl
  frame := rfl
  phase := .inl rfl

/-- Settles O8: the registers by their values in `State.reset`, the bytes of `FB` as unwritten ones. -/
theorem resetState : Obligations.ResetState :=
  ⟨rfl, rfl, rfl, rfl, rfl, rfl, rfl, rfl, rfl, rfl, State.reset_reqReady, State.fbByte_reset⟩

/-- Settles O9: nothing is listed, counted or held, so the clauses on cells, `INIT_DONE` and a held request have no
case, and the block is settled. -/
theorem resetMeetsInvariant : Obligations.ResetMeetsInvariant where
  fbWf := rfl
  curRange := by decide
  fiRange := by decide
  initReady := nofun
  riCounts := rfl
  waiting := nofun
  settled _ := State.reset_settled

end Sys2Proof.Machine
